-- ==== Sys2Proof/Word.lean ====
section
/-! DEFINITION. The bit-vector types of the engine (00_scope.md R8 to R10): unsigned everywhere, bit 0 least
significant. -/

namespace Sys2Proof

/-- A 64-bit word, the spec's `u64`. -/
abbrev Word := BitVec 64

/-- One byte. -/
abbrev Byte := BitVec 8

/-- The 128-bit counters T and REMAIN, the spec's `u128`. -/
abbrev Count := BitVec 128

/-- A word address of the register space (20_memory.md R50). -/
abbrev Addr := BitVec 8

/-- A host transaction TX: WE in bit 72, ADDR in bits 71:64, WDATA in bits 63:0 (30_encoding.md R70). -/
abbrev TxWord := BitVec 73

end Sys2Proof
end

