-- ==== Sys2Proof/Syntax.lean ====
section
/-! DEFINITION. The engine's instructions (one constructor per row of spec/opcode_table.json) and the host assembly
of 30_encoding.md R87 and R88. -/

namespace Sys2Proof

/-- The thirteen host transactions that name a register access or a command. An index is a `Fin`, so that no
instruction outside its row's field can be written down. -/
inductive Instr where
  /-- WR_CONFIG, 43_driver.md R175. -/
  | wrConfig (d : Word)
  /-- RD_CONFIG, 43_driver.md R176. -/
  | rdConfig
  /-- WR_MSGLEN, 43_driver.md R177. -/
  | wrMsglen (d : Word)
  /-- RD_MSGLEN, 43_driver.md R184. -/
  | rdMsglen
  /-- CMD_INIT, 43_driver.md R172. -/
  | cmdInit
  /-- CMD_NEXT, 43_driver.md R173. -/
  | cmdNext
  /-- CMD_WIPE, 43_driver.md R174. -/
  | cmdWipe
  /-- RD_STATUS, 43_driver.md R183. -/
  | rdStatus
  /-- RD_T_LO, 43_driver.md R180. -/
  | rdTLo
  /-- RD_T_HI, 43_driver.md R181. -/
  | rdTHi
  /-- WR_M, 43_driver.md R178. -/
  | wrM (i : Fin 16) (d : Word)
  /-- RD_M, 43_driver.md R179. -/
  | rdM (i : Fin 16)
  /-- RD_DIGEST, 43_driver.md R182. -/
  | rdDigest (i : Fin 8)
  deriving DecidableEq, Repr

/-- A register name of the host assembly (20_memory.md R51, 30_encoding.md R87). An index is written as a number and
checked by `Reg.wf`. -/
inductive Reg where
  | config | msglen | cmd | status | tLo | tHi
  | m (i : Nat)
  | digest (i : Nat)
  deriving DecidableEq, Repr

/-- A command name (30_encoding.md R80). -/
inductive Command where
  | init | next | wipe
  deriving DecidableEq, Repr

/-- A statement of the host assembly: the three of 30_encoding.md R87 and the three pseudo-instructions of R88. -/
inductive Stmt where
  | wr (r : Reg) (value : Nat)
  | rd (r : Reg)
  | cmd (c : Command)
  | poll
  | ldblk (bytes : List Byte)
  | ldkey (bytes : List Byte)
  deriving DecidableEq, Repr

end Sys2Proof
end

