-- ==== Sys2Proof/Decode.lean ====
section
/-! DEFINITION. Decoding a transaction word into an instruction or a rejection by name (30_encoding.md R70 to R73,
R81 to R83), and the encoder written from the same tables. Decoding is total on all 73-bit words. -/

namespace Sys2Proof

/-- Bit 72: 1 = write, 0 = read (30_encoding.md R70). -/
def txIsWrite (w : TxWord) : Bool := w.getLsbD 72

/-- Bits 71:64 (30_encoding.md R70). -/
def txAddr (w : TxWord) : Addr := w.extractLsb' 64 8

/-- Bits 63:0 (30_encoding.md R70). -/
def txData (w : TxWord) : Word := w.extractLsb' 0 64

/-- Put the three fields of 30_encoding.md R70 together: `WE<<72 | ADDR<<64 | WDATA`. -/
def txWord (we : Bool) (addr : Addr) (data : Word) : TxWord :=
  ((BitVec.ofBool we).setWidth 73 <<< 72) ||| (addr.setWidth 73 <<< 64) ||| data.setWidth 73

/-- Why a word is no instruction. -/
inductive Reject where
  /-- ADDR 0x06 to 0x0F or 0x28 to 0xFF (30_encoding.md R82). -/
  | reservedAddress
  /-- A write to STATUS, T_LO, T_HI or DIGEST[i] (30_encoding.md R83). -/
  | readOnlyRegister
  /-- A read of CMD (30_encoding.md R83). -/
  | writeOnlyRegister
  /-- A CMD word other than 1, 2 and 3 (30_encoding.md R73, R81). -/
  | illegalCommand
  deriving DecidableEq, Repr

/-- What a word stands for. -/
inductive Decoded where
  | instr (i : Instr)
  | rejected (r : Reject)
  deriving DecidableEq, Repr

/-- A write to CMD: OPCODE is bits 7:0 and RSVD, bits 63:8, must be 0 (30_encoding.md R73, R80, R81). -/
def decodeCommand (d : Word) : Decoded :=
  if d.extractLsb' 8 56 ≠ 0 then .rejected .illegalCommand
  else match (d.extractLsb' 0 8).toNat with
    | 1 => .instr .cmdInit
    | 2 => .instr .cmdNext
    | 3 => .instr .cmdWipe
    | _ => .rejected .illegalCommand

/-- ADDR 0x00 to 0x05 and everything that is neither M nor DIGEST (30_encoding.md R72, R82, R83). -/
def decodeControl (we : Bool) (addr : Addr) (d : Word) : Decoded :=
  match addr.toNat with
  | 0 => .instr (if we then .wrConfig d else .rdConfig)
  | 1 => .instr (if we then .wrMsglen d else .rdMsglen)
  | 2 => if we then decodeCommand d else .rejected .writeOnlyRegister
  | 3 => if we then .rejected .readOnlyRegister else .instr .rdStatus
  | 4 => if we then .rejected .readOnlyRegister else .instr .rdTLo
  | 5 => if we then .rejected .readOnlyRegister else .instr .rdTHi
  | _ => .rejected .reservedAddress

/-- The decoder of 30_encoding.md R72: ADDR[7:4] = 0001 is M[ADDR[3:0]], ADDR[7:3] = 00100 is DIGEST[ADDR[2:0]].
WDATA of a read is ignored (R71). -/
def decode (w : TxWord) : Decoded :=
  let we := txIsWrite w
  let addr := txAddr w
  let d := txData w
  if addr.extractLsb' 4 4 = 1#4 then
    let i : Fin 16 := (addr.extractLsb' 0 4).toFin
    .instr (if we then .wrM i d else .rdM i)
  else if addr.extractLsb' 3 5 = 4#5 then
    if we then .rejected .readOnlyRegister else .instr (.rdDigest (addr.extractLsb' 0 3).toFin)
  else decodeControl we addr d

/-- The OPCODE of a command (30_encoding.md R80). -/
def Command.opcode : Command → Word
  | .init => 1
  | .next => 2
  | .wipe => 3

/-- The word of an instruction, with M[i] at 0x10 + i and DIGEST[i] at 0x20 + i (30_encoding.md R87). A read's WDATA, a don't-care (30_encoding.md R71), is written as 0. -/
def encode : Instr → TxWord
  | .wrConfig d => txWord true 0x00 d
  | .rdConfig => txWord false 0x00 0
  | .wrMsglen d => txWord true 0x01 d
  | .rdMsglen => txWord false 0x01 0
  | .cmdInit => txWord true 0x02 Command.init.opcode
  | .cmdNext => txWord true 0x02 Command.next.opcode
  | .cmdWipe => txWord true 0x02 Command.wipe.opcode
  | .rdStatus => txWord false 0x03 0
  | .rdTLo => txWord false 0x04 0
  | .rdTHi => txWord false 0x05 0
  | .wrM i d => txWord true (BitVec.ofNat 8 (0x10 + i.val)) d
  | .rdM i => txWord false (BitVec.ofNat 8 (0x10 + i.val)) 0
  | .rdDigest i => txWord false (BitVec.ofNat 8 (0x20 + i.val)) 0

/-- The address of a register name (20_memory.md R51, 30_encoding.md R87). -/
def Reg.addr : Reg → Addr
  | .config => 0x00
  | .msglen => 0x01
  | .cmd => 0x02
  | .status => 0x03
  | .tLo => 0x04
  | .tHi => 0x05
  | .m i => BitVec.ofNat 8 (0x10 + i)
  | .digest i => BitVec.ofNat 8 (0x20 + i)

/-- The fixed bits of one row of spec/opcode_table.json: a word w is of the row when `w &&& mask = pattern`. -/
structure Row where
  mask : TxWord
  pattern : TxWord
  deriving DecidableEq, Repr

/-- The row of an instruction's constructor, from the mask and match columns of spec/opcode_table.json. -/
def Instr.row : Instr → Row
  | .wrConfig _ => ⟨0x1FF0000000000000000, 0x1000000000000000000⟩
  | .rdConfig => ⟨0x1FF0000000000000000, 0x0000000000000000000⟩
  | .wrMsglen _ => ⟨0x1FF0000000000000000, 0x1010000000000000000⟩
  | .rdMsglen => ⟨0x1FF0000000000000000, 0x0010000000000000000⟩
  | .cmdInit => ⟨0x1FFFFFFFFFFFFFFFFFF, 0x1020000000000000001⟩
  | .cmdNext => ⟨0x1FFFFFFFFFFFFFFFFFF, 0x1020000000000000002⟩
  | .cmdWipe => ⟨0x1FFFFFFFFFFFFFFFFFF, 0x1020000000000000003⟩
  | .rdStatus => ⟨0x1FF0000000000000000, 0x0030000000000000000⟩
  | .rdTLo => ⟨0x1FF0000000000000000, 0x0040000000000000000⟩
  | .rdTHi => ⟨0x1FF0000000000000000, 0x0050000000000000000⟩
  | .wrM _ _ => ⟨0x1F00000000000000000, 0x1100000000000000000⟩
  | .rdM _ => ⟨0x1F00000000000000000, 0x0100000000000000000⟩
  | .rdDigest _ => ⟨0x1F80000000000000000, 0x0200000000000000000⟩

/-- One instruction of each row, in the order of spec/opcode_table.json. -/
def rowSamples : List Instr :=
  [.wrConfig 0, .rdConfig, .wrMsglen 0, .rdMsglen, .cmdInit, .cmdNext, .cmdWipe, .rdStatus, .rdTLo, .rdTHi,
    .wrM 0 0, .rdM 0, .rdDigest 0]

/-- The rows of spec/opcode_table.json, in its order. -/
def opcodeTable : List Row := rowSamples.map Instr.row

/-- Whether a word has a row's fixed bits. -/
def Row.holds (r : Row) (w : TxWord) : Bool := w &&& r.mask == r.pattern

/-- What the decoder reads from a word numbered as spec/opcode_table.json numbers it. TX is one fixed format
(30_encoding.md R85), so `nbits` selects nothing; a number with a bit above bit 72 is no TX. -/
def decodeTableWord (_nbits w : Nat) : Option Instr :=
  if w < 2 ^ 73 then
    match decode (BitVec.ofNat 73 w) with
    | .instr i => some i
    | .rejected _ => none
  else none

end Sys2Proof
end

