-- ==== Sys2Proof/Config.lean ====
section
/-! DEFINITION. What the spec leaves to the platform. The schedule, the other open parameter of
92_eei_decisions.md, is plain data in State (`sched`), so that a run can be written out. -/

namespace Sys2Proof

/-- `BUS_BASE` (00_scope.md R9, 20_memory.md R52): the system byte address of register word 0. The spec leaves it
open and no rule depends on it, so it has no value here (log entry 10). -/
opaque Config.busBase : Nat

end Sys2Proof
end

