-- ==== Sys2Proof/Machine/State.lean ====
section
/-! DEFINITION. The machine's state as plain data: every element of 10_state.md R20, and three fields of the model's
own on the host's side of the interface. -/

namespace Sys2Proof.Machine

/-- PHASE (10_state.md R31). The value 3 is never taken, so it has no name here (log entry 8). -/
inductive Phase where
  | idle
  | active
  | done
  deriving DecidableEq, Repr

/-- ERRCODE (60_exceptions.md R220). Codes 6 to 15 are never recorded, so they have no name here (log entry 8). -/
inductive ErrCode where
  /-- Code 0: no error since the last clear. -/
  | none
  /-- Code 1: INIT with an illegal configuration. -/
  | config
  /-- Code 2: NEXT or a DIGEST read out of phase. -/
  | seq
  /-- Code 3: a transaction other than RD STATUS while BUSY = 1. -/
  | busy
  /-- Code 4: an illegal CMD word. -/
  | illegalCmd
  /-- Code 5: an access the register map does not allow. -/
  | access
  deriving DecidableEq, Repr

/-- The two agents that take steps (00_scope.md R14). -/
inductive Agent where
  | host
  | engine
  deriving DecidableEq, Repr

/-- One operation of the host side, in the order the host issues them (20_memory.md R58). -/
inductive HostOp where
  /-- A transaction of `width` bytes with the word TX (30_encoding.md R70; 20_memory.md R54 for the width). -/
  | tx (width : Nat) (w : TxWord)
  /-- POLL: RD STATUS repeated until BUSY = 0 is read (30_encoding.md R88). -/
  | poll
  /-- A reset (70_reset_and_hazards.md R250, R251). -/
  | reset
  deriving DecidableEq, Repr

/-- The state. The first sixteen fields are 10_state.md R20; the last three are the model's own (log entries 2, 4
and 5). IV and SIGMA are constants (10_state.md R40), in Machine/Tables.lean. -/
structure State where
  /-- H[0..7], the hash state (R21). -/
  h : Vector Word 8
  /-- V[0..15], the working vector (R22). -/
  v : Vector Word 16
  /-- M[0..15], the block buffer (R23). -/
  m : Vector Word 16
  /-- T, the byte counter (R24). -/
  t : Count
  /-- REMAIN, the bytes of the combined stream that no NEXT has consumed (R25). -/
  remain : Count
  /-- CONFIG (R26). -/
  config : BitVec 16
  /-- MSGLEN (R27). -/
  msglen : Word
  /-- KL, the latched key length (R28). -/
  kl : Byte
  /-- HL, the latched digest length (R28). -/
  hl : Byte
  /-- KEYPEND: the block in M is the key block (R29). -/
  keypend : Bool
  /-- LASTF, the last-block flag (R30). -/
  lastf : Bool
  /-- PHASE (R31). -/
  phase : Phase
  /-- BUSY (R32). -/
  busy : Bool
  /-- RND, rounds completed (R33). -/
  rnd : Fin 13
  /-- GIX, mixes of round RND completed (R33). -/
  gix : Fin 8
  /-- ERRCODE, the first error since the last clear (R35). -/
  errcode : ErrCode
  /-- Model's own: the host operations still to be presented, oldest first. -/
  queue : List HostOp
  /-- Model's own: the RDATA words the host has received, newest first (30_encoding.md R71). -/
  replies : List Word
  /-- Model's own: the draws of the schedule (70_reset_and_hazards.md R258), a free value: no statement rests on what
  it holds. -/
  sched : List Agent
  deriving DecidableEq, Repr

/-- Every element at its value in the table of 10_state.md R45 (70_reset_and_hazards.md R250). The three fields of the
model's own are empty (DESIGN CHOICE, log entries 2, 4 and 5). -/
def State.reset : State where
  h := Vector.replicate 8 0
  v := Vector.replicate 16 0
  m := Vector.replicate 16 0
  t := 0
  remain := 0
  config := 0
  msglen := 0
  kl := 0
  hl := 0
  keypend := false
  lastf := false
  phase := .idle
  busy := false
  rnd := 0
  gix := 0
  errcode := .none
  queue := []
  replies := []
  sched := []

/-- The engine has no trap (60_exceptions.md R230) and every 73-bit word has a defined outcome (30_encoding.md R70), so
no step ends in a fault: there is no reason to name. -/
inductive Fault where
  deriving DecidableEq, Repr

/-- Why the model gives a step no meaning. -/
inductive Refusal where
  /-- An instruction without a meaning yet. Raised by a rejected arm of `exec` only; safe. No arm raises it. -/
  | notModelled (mnemonic : String)
  /-- A transaction whose width is not 8 bytes: "A model refuses any transaction whose width is not 8 bytes"
  (20_memory.md R54). Raised by `transact`; safe (log entry 6). -/
  | notWholeWord
  deriving DecidableEq, Repr

/-- The outcome of a move of this machine. -/
abbrev Result := Host.Outcome State Fault Refusal

end Sys2Proof.Machine
end

