-- ==== Sys2Proof/Machine/Ops.lean ====
section
/-! DEFINITION. The named operations the meanings share: the bytes of words, ending a transaction, and recording an
error (the engine's only exception, 60_exceptions.md R223). -/

namespace Sys2Proof.Machine

/-- `byte(x, k)` of 00_scope.md R10: bits 8k+7 to 8k, byte 0 the least significant. -/
def byteOf (x : Word) (k : Nat) : Byte := x.extractLsb' (8 * k) 8

/-- The word whose byte k is `b k`: `b0 | b1<<8 | … | b7<<56` (20_memory.md R53, 00_scope.md R10). -/
def wordOfBytes (b : Nat → Byte) : Word :=
  let z := fun k => (b k).setWidth 64 <<< (8 * k)
  z 0 ||| z 1 ||| z 2 ||| z 3 ||| z 4 ||| z 5 ||| z 6 ||| z 7

/-- `le64`: the little-endian reading of up to eight bytes; a missing byte counts as 0 (00_scope.md R10). -/
def le64 (bytes : List Byte) : Word := wordOfBytes fun k => bytes.getD k 0

/-- Word i of a word vector with the bytes at or beyond position n of the whole vector made 0: byte k of word i stays
exactly when 8·i + k < n. Used for padding (42_message_assembler.md R157, R158) and for the digest view
(10_state.md R38). -/
def keepBelow (n i : Nat) (x : Word) : Word := wordOfBytes fun k => if 8 * i + k < n then byteOf x k else 0

/-- Block byte j (0..127) is `byte(M[j div 8], j mod 8)` (10_state.md R23). -/
def blockByte (m : Vector Word 16) (j : Fin 128) : Byte :=
  byteOf (m.get ⟨j.val / 8, by omega⟩) (j.val % 8)

/-- Digest byte j (0..63) is `byte(H[j div 8], j mod 8)` (43_driver.md R185). -/
def hashByte (h : Vector Word 8) (j : Fin 64) : Byte :=
  byteOf (h.get ⟨j.val / 8, by omega⟩) (j.val % 8)

/-- The system byte address of byte k of register ADDR on a platform that maps the space onto byte addresses
(20_memory.md R52). No transaction uses it. -/
def regByteAddr (addr : Addr) (k : Fin 8) : Nat := Config.busBase + 8 * addr.toNat + k.val

/-- `raise E` (60_exceptions.md R223): the first error since the last clear wins, and nothing else changes. -/
def State.raise (e : ErrCode) (s : State) : State :=
  if s.errcode = .none then { s with errcode := e } else s

/-- A read ends by returning RDATA to the host (30_encoding.md R71). -/
def State.reply (rdata : Word) (s : State) : State := { s with replies := rdata :: s.replies }

/-- A refused transaction: the error is raised, a read returns RDATA = 0, a write returns nothing
(60_exceptions.md R223, 30_encoding.md R71). -/
def refuse (isWrite : Bool) (e : ErrCode) (s : State) : Result :=
  .next (if isWrite then s.raise e else (s.raise e).reply 0)

/-- The first check of 60_exceptions.md R228: while BUSY = 1 every transaction but RD STATUS is refused with BUSY
(R224). -/
def unlessBusy (isWrite : Bool) (s : State) (go : Result) : Result :=
  if s.busy then refuse isWrite .busy s else go

/-- Every element of 10_state.md R20 at its value in the table of 10_state.md R45: what WIPE (43_driver.md R174) and
reset (70_reset_and_hazards.md R250) both do. The host's side of the interface is no element of R20. -/
def State.clearEngine (s : State) : State :=
  { State.reset with queue := s.queue, replies := s.replies, sched := s.sched }

end Sys2Proof.Machine
end

