-- ==== Sys2Proof/Machine/Operands.lean ====
section
/-! DEFINITION. The operands of the commands and the words of the register views: the fields of CONFIG, the parameter
word, the block decisions of NEXT, T_LO, T_HI and DIGEST. -/

namespace Sys2Proof.Machine

/-- HASHLEN = CONFIG[7:0] (30_encoding.md R74). -/
def hashLen (config : BitVec 16) : Byte := config.extractLsb' 0 8

/-- KEYLEN = CONFIG[15:8] (30_encoding.md R74). -/
def keyLen (config : BitVec 16) : Byte := config.extractLsb' 8 8

/-- What a write of CONFIG stores: the low 16 bits (43_driver.md R175). -/
def configStored (d : Word) : BitVec 16 := d.extractLsb' 0 16

/-- The CONFIG word as read: bits 63:16 are 0 (30_encoding.md R74). -/
def configWord (config : BitVec 16) : Word := config.setWidth 64

/-- A configuration is legal exactly when KEYLEN <= 64 and 1 <= HASHLEN <= 64 (43_driver.md R171). -/
def legalConfig (kk nn : Byte) : Bool := kk ≤ 64 && (1 ≤ nn && nn ≤ 64)

/-- The parameter word `P(KK, NN) = 0x01010000 ^ (zext_64(KK) << 8) ^ zext_64(NN)` (43_driver.md R170). -/
def paramWord (kk nn : Byte) : Word := 0x01010000 ^^^ (kk.setWidth 64 <<< 8) ^^^ nn.setWidth 64

/-- The combined length `L + (K > 0 ? 128 : 0)` that INIT puts into REMAIN (42_message_assembler.md R150). -/
def combinedLength (msglen : Word) (kk : Byte) : Count := msglen.setWidth 128 + if kk > 0 then 128 else 0

/-- The last-block decision of NEXT: `REMAIN <= 128` (42_message_assembler.md R155). -/
def isLast (remain : Count) : Bool := remain ≤ 128

/-- The block's byte count: `last ? REMAIN[7:0] : 128` (42_message_assembler.md R156). -/
def blockCount (remain : Count) : Byte := if isLast remain then remain.extractLsb' 0 8 else 128

/-- Where padding starts: KL for the key block, else the byte count (42_message_assembler.md R157, R158). -/
def padFrom (keypend : Bool) (kl n : Byte) : Nat := if keypend then kl.toNat else n.toNat

/-- T_LO = T[63:0] (10_state.md R37). -/
def tLo (t : Count) : Word := t.extractLsb' 0 64

/-- T_HI = T[127:64] (10_state.md R37). -/
def tHi (t : Count) : Word := t.extractLsb' 64 64

/-- DIGEST[i]: byte k equals byte k of H[i] when 8·i + k < HL, and 0 otherwise (10_state.md R38). -/
def digestWord (h : Vector Word 8) (hl : Byte) (i : Fin 8) : Word := keepBelow hl.toNat i.val (h.get i)

end Sys2Proof.Machine
end

