-- ==== Sys2Proof/Machine/Assembler.lean ====
section
/-! DEFINITION. The message_assembler: padding in place (42_message_assembler.md R157, R158). -/

namespace Sys2Proof.Machine

/-- Zero the bytes `from..127` of the block: `for j in from..127: byte(M[j div 8], j mod 8) <- 0`
(42_message_assembler.md R157, R158). -/
def padBlock (start : Nat) (m : Vector Word 16) : Vector Word 16 :=
  Vector.ofFn fun i => keepBelow start i.val (m.get i)

end Sys2Proof.Machine
end

