-- ==== Sys2Proof/Machine/Mixer.lean ====
section
/-! DEFINITION. The state_mixer: the primitives and the G function (40_state_mixer.md R100 to R110). Carries are
discarded and there are no flags. -/

namespace Sys2Proof.Machine

/-- ADD64, addition modulo 2^64 (40_state_mixer.md R100). -/
def add64 (a b : Word) : Word := a + b

/-- ADD3 (40_state_mixer.md R101). -/
def add3 (a b x : Word) : Word := add64 (add64 a b) x

/-- XOR64 (40_state_mixer.md R102). -/
def xor64 (a b : Word) : Word := a ^^^ b

/-- ROTR64 for 0 < n < 64 (40_state_mixer.md R103). -/
def rotr64 (x : Word) (n : Nat) : Word := (x >>> n) ||| (x <<< (64 - n))

/-- ROTR32 (40_state_mixer.md R104). -/
def rotr32 (x : Word) : Word := rotr64 x 32

/-- ROTR24 (40_state_mixer.md R105). -/
def rotr24 (x : Word) : Word := rotr64 x 24

/-- ROTR16 (40_state_mixer.md R106). -/
def rotr16 (x : Word) : Word := rotr64 x 16

/-- ROTR63, a left rotation by one (40_state_mixer.md R107). -/
def rotr63 (x : Word) : Word := rotr64 x 63

/-- The four words a G works on. -/
structure Mixed where
  a : Word
  b : Word
  c : Word
  d : Word
  deriving DecidableEq, Repr

/-- One half of G with message word z and the two rotations of that half (40_state_mixer.md R108: the two document
lines have this one shape). -/
def mixHalf (rotD rotB : Word → Word) (z : Word) (w : Mixed) : Mixed :=
  let a := add3 w.a w.b z
  let d := rotD (xor64 w.d a)
  let c := add64 w.c d
  let b := rotB (xor64 w.b c)
  ⟨a, b, c, d⟩

/-- G (40_state_mixer.md R108): x and the rotations 32 and 24 in the first half, y and the rotations 16 and 63 in the
second (R110). -/
def mixG (w : Mixed) (x y : Word) : Mixed :=
  mixHalf rotr16 rotr63 y (mixHalf rotr32 rotr24 x w)

end Sys2Proof.Machine
end

