-- ==== Sys2Proof/Machine/Compression.lean ====
section
/-! DEFINITION. The compression engine: seeding V, the mixes of a round, F as a pure function, and the engine agent's
step (41_compression.md R120 to R142). -/

namespace Sys2Proof.Machine

/-- V at the start of F: H and IV, then T XORed into words 12 and 13, then all-ones into word 14 when the block is the
last (41_compression.md R123 to R125). -/
def seedV (h : Vector Word 8) (t : Count) (last : Bool) : Vector Word 16 :=
  let v : Vector Word 16 := Vector.ofFn fun i =>
    if hi : i.val < 8 then h.get ⟨i.val, hi⟩ else iv.get ⟨i.val - 8, by omega⟩
  let v := v.set 12 (v[12] ^^^ tLo t)
  let v := v.set 13 (v[13] ^^^ tHi t)
  if last then v.set 14 (v[14] ^^^ 0xFFFFFFFFFFFFFFFF) else v

/-- The words of V at a quadruple. -/
def Quad.read (q : Quad) (v : Vector Word 16) : Mixed := ⟨v.get q.ia, v.get q.ib, v.get q.ic, v.get q.id⟩

/-- Write the four results back to the same positions. -/
def Quad.write (q : Quad) (r : Mixed) (v : Vector Word 16) : Vector Word 16 :=
  (((v.set q.ia r.a).set q.ib r.b).set q.ic r.c).set q.id r.d

/-- G_V (40_state_mixer.md R109) on the quadruple of mix j. Taking j and not four positions, it cannot be written on
aliased positions, for which the spec defines nothing. -/
def mixAt (j : Fin 8) (x y : Word) (v : Vector Word 16) : Vector Word 16 :=
  let q := quads.get j
  q.write (mixG (q.read v) x y) v

/-- Mix j of round r: x = m[s[2j]] and y = m[s[2j+1]] with s = SIGMA[r mod 10] (41_compression.md R122, R127). -/
def roundMix (m : Vector Word 16) (r : Nat) (j : Fin 8) (v : Vector Word 16) : Vector Word 16 :=
  let s := sigmaRow r
  mixAt j (m.get (s.get ⟨2 * j.val, by omega⟩)) (m.get (s.get ⟨2 * j.val + 1, by omega⟩)) v

/-- The first n mixes of F in the order of 41_compression.md R127 and R129: mix number k is mix k mod 8 of round
k div 8. -/
def mixes (m : Vector Word 16) : Nat → Vector Word 16 → Vector Word 16
  | 0, v => v
  | n + 1, v => roundMix m (n / 8) ⟨n % 8, Nat.mod_lt _ (by decide)⟩ (mixes m n v)

/-- `H[i] ^ V[i] ^ V[i+8]` (41_compression.md R130). -/
def feedForward (h : Vector Word 8) (v : Vector Word 16) : Vector Word 8 :=
  Vector.ofFn fun i => h.get i ^^^ v.get ⟨i.val, by omega⟩ ^^^ v.get ⟨i.val + 8, by omega⟩

/-- One round: the eight mixes in the order j = 0..7 (41_compression.md R127). -/
def roundF (m : Vector Word 16) (r : Nat) (v : Vector Word 16) : Vector Word 16 :=
  (List.finRange 8).foldl (fun v j => roundMix m r j v) v

/-- F as a pure function (41_compression.md R131): seed, 12 rounds (R129), feed forward. -/
def compressF (h : Vector Word 8) (m : Vector Word 16) (t : Count) (last : Bool) : Vector Word 8 :=
  feedForward h ((List.range 12).foldl (fun v r => roundF m r v) (seedV h t last))

/-- The finalize step (41_compression.md R142). -/
def finalize (s : State) : State :=
  { s with
    h := feedForward s.h s.v
    keypend := false
    phase := if s.lastf then .done else .active
    rnd := 0
    gix := 0
    busy := false }

/-- The engine agent's one enabled step while BUSY = 1 (41_compression.md R140): one G, or the finalize step. -/
def engineStep (s : State) : State :=
  if h : s.rnd.val < 12 then
    let v := roundMix s.m s.rnd.val s.gix s.v
    if s.gix = 7 then { s with v := v, gix := 0, rnd := ⟨s.rnd.val + 1, by omega⟩ }
    else { s with v := v, gix := s.gix + 1 }
  else finalize s

/-- The whole compression of one accepted NEXT: 97 engine steps (41_compression.md R141). -/
def engineRun : Nat → State → State
  | 0, s => s
  | n + 1, s => engineRun n (engineStep s)

end Sys2Proof.Machine
end

