-- ==== Sys2Proof/Machine/Commands.lean ====
section
/-! DEFINITION. The commands INIT, NEXT and WIPE (43_driver.md R172 to R174). The checks come in the order of
60_exceptions.md R228. -/

namespace Sys2Proof.Machine

/-- The state of an accepted INIT (43_driver.md R172). M, V, CONFIG and MSGLEN keep their values. -/
def initState (s : State) : State :=
  let kk := keyLen s.config
  let nn := hashLen s.config
  { s with
    h := iv.set 0 (iv[0] ^^^ paramWord kk nn)
    t := 0
    kl := kk
    hl := nn
    remain := combinedLength s.msglen kk
    keypend := kk > 0
    lastf := false
    phase := .active
    errcode := .none }

/-- CMD_INIT (43_driver.md R172). -/
def execCmdInit (s : State) : Result :=
  unlessBusy true s
    (if legalConfig (keyLen s.config) (hashLen s.config) then .next (initState s) else refuse true .config s)

/-- The state of an accepted NEXT: decide, pad, count, seed V and start the engine (43_driver.md R173). -/
def nextState (s : State) : State :=
  let last := isLast s.remain
  let n := blockCount s.remain
  let t := s.t + n.setWidth 128
  { s with
    lastf := last
    m := padBlock (padFrom s.keypend s.kl n) s.m
    t := t
    remain := s.remain - n.setWidth 128
    v := seedV s.h t last
    rnd := 0
    gix := 0
    busy := true }

/-- CMD_NEXT (43_driver.md R173). -/
def execCmdNext (s : State) : Result :=
  unlessBusy true s (if s.phase = .active then .next (nextState s) else refuse true .seq s)

/-- CMD_WIPE (43_driver.md R174). -/
def execCmdWipe (s : State) : Result :=
  unlessBusy true s (.next s.clearEngine)

end Sys2Proof.Machine
end

