-- ==== Sys2Proof/Machine/Flags.lean ====
section
/-! DEFINITION. The STATUS word (30_encoding.md R75). The engine has no condition codes and no arithmetic flags
(10_state.md R42): its status bits are BUSY, PHASE, KEYPEND, LASTF and ERRCODE, and STATUS is a view of them. -/

namespace Sys2Proof.Machine

/-- PHASE as two bits: 0 IDLE, 1 ACTIVE, 2 DONE (10_state.md R31). -/
def Phase.bits : Phase → BitVec 2
  | .idle => 0
  | .active => 1
  | .done => 2

/-- ERRCODE as four bits (60_exceptions.md R220). -/
def ErrCode.bits : ErrCode → BitVec 4
  | .none => 0
  | .config => 1
  | .seq => 2
  | .busy => 3
  | .illegalCmd => 4
  | .access => 5

/-- `STATUS = zext_64({ERRCODE, 000, LASTF, KEYPEND, PHASE, BUSY})` (30_encoding.md R75). -/
def statusWord (s : State) : Word :=
  (s.errcode.bits ++ (0#3 ++ (BitVec.ofBool s.lastf ++ (BitVec.ofBool s.keypend ++
    (s.phase.bits ++ BitVec.ofBool s.busy))))).setWidth 64

/-- The BUSY bit of a STATUS word, the one POLL looks at (30_encoding.md R75, R88). -/
def statusBusy (status : Word) : Bool := status.getLsbD 0

end Sys2Proof.Machine
end

