-- ==== Sys2Proof/Machine/Reads.lean ====
section
/-! DEFINITION. The register reads (43_driver.md R176, R179 to R184). -/

namespace Sys2Proof.Machine

/-- RD_CONFIG (43_driver.md R176). -/
def execRdConfig (s : State) : Result :=
  unlessBusy false s (.next (s.reply (configWord s.config)))

/-- RD_MSGLEN (43_driver.md R184). -/
def execRdMsglen (s : State) : Result :=
  unlessBusy false s (.next (s.reply s.msglen))

/-- RD_STATUS (43_driver.md R183): the one transaction accepted while BUSY = 1. -/
def execRdStatus (s : State) : Result :=
  .next (s.reply (statusWord s))

/-- RD_T_LO (43_driver.md R180). -/
def execRdTLo (s : State) : Result :=
  unlessBusy false s (.next (s.reply (tLo s.t)))

/-- RD_T_HI (43_driver.md R181). -/
def execRdTHi (s : State) : Result :=
  unlessBusy false s (.next (s.reply (tHi s.t)))

/-- RD_M (43_driver.md R179). -/
def execRdM (i : Fin 16) (s : State) : Result :=
  unlessBusy false s (.next (s.reply (s.m.get i)))

/-- RD_DIGEST (43_driver.md R182): SEQ unless PHASE = DONE. -/
def execRdDigest (i : Fin 8) (s : State) : Result :=
  unlessBusy false s
    (if s.phase = .done then .next (s.reply (digestWord s.h s.hl i)) else refuse false .seq s)

end Sys2Proof.Machine
end

