-- ==== Sys2Proof/Machine/Writes.lean ====
section
/-! DEFINITION. The register writes (43_driver.md R175, R177, R178). A write returns nothing (30_encoding.md R71). -/

namespace Sys2Proof.Machine

/-- WR_CONFIG (43_driver.md R175). -/
def execWrConfig (d : Word) (s : State) : Result :=
  unlessBusy true s (.next { s with config := configStored d })

/-- WR_MSGLEN (43_driver.md R177). -/
def execWrMsglen (d : Word) (s : State) : Result :=
  unlessBusy true s (.next { s with msglen := d })

/-- WR_M (43_driver.md R178). -/
def execWrM (i : Fin 16) (d : Word) (s : State) : Result :=
  unlessBusy true s (.next { s with m := s.m.set i d })

end Sys2Proof.Machine
end

