-- ==== Sys2Proof/Machine/Dispatch.lean ====
section
/-! DEFINITION. One arm per instruction. -/

namespace Sys2Proof.Machine

def exec (i : Instr) (s : State) : Host.Outcome State Fault Refusal :=
  match i with
  | .wrConfig d => Sys2Proof.Machine.execWrConfig d s
  | .rdConfig => Sys2Proof.Machine.execRdConfig s
  | .wrMsglen d => Sys2Proof.Machine.execWrMsglen d s
  | .rdMsglen => Sys2Proof.Machine.execRdMsglen s
  | .cmdInit => Sys2Proof.Machine.execCmdInit s
  | .cmdNext => Sys2Proof.Machine.execCmdNext s
  | .cmdWipe => Sys2Proof.Machine.execCmdWipe s
  | .rdStatus => Sys2Proof.Machine.execRdStatus s
  | .rdTLo => Sys2Proof.Machine.execRdTLo s
  | .rdTHi => Sys2Proof.Machine.execRdTHi s
  | .wrM k d => Sys2Proof.Machine.execWrM k d s
  | .rdM k => Sys2Proof.Machine.execRdM k s
  | .rdDigest k => Sys2Proof.Machine.execRdDigest k s

end Sys2Proof.Machine
end

