-- ==== Sys2Proof/Machine/Agents.lean ====
section
/-! DEFINITION. The two agents and how their moves interleave (00_scope.md R14, 20_memory.md R58,
70_reset_and_hazards.md R258). -/

namespace Sys2Proof.Machine

/-- The error a rejected word raises (60_exceptions.md R225, R226). -/
def rejectCode : Reject → ErrCode
  | .reservedAddress => .access
  | .readOnlyRegister => .access
  | .writeOnlyRegister => .access
  | .illegalCommand => .illegalCmd

/-- A transaction whose word is no instruction: BUSY first, else its own error (60_exceptions.md R228). -/
def execRejected (r : Reject) (isWrite : Bool) (s : State) : Result :=
  unlessBusy isWrite s (refuse isWrite (rejectCode r) s)

/-- One host transaction of `width` bytes (30_encoding.md R70). A width other than 8 is refused (20_memory.md R54). -/
def transact (width : Nat) (w : TxWord) (s : State) : Result :=
  if width = 8 then
    match decode w with
    | .instr i => exec i s
    | .rejected r => execRejected r (txIsWrite w) s
  else .refused .notWholeWord

/-- POLL goes on while the STATUS word just read has BUSY = 1 (30_encoding.md R88). -/
def pollAgain (s : State) : Bool := (s.replies.head?.map statusBusy).getD false

/-- One STATUS read of a POLL, which stays at the head of the queue while BUSY = 1 is read. -/
def pollMove (s : State) : Result :=
  match transact 8 (encode .rdStatus) s with
  | .next s' => .next (if pollAgain s' then { s' with queue := .poll :: s'.queue } else s')
  | .fault r => .fault r
  | .refused r => .refused r

/-- The host side presents one operation; `s` is the state with that operation taken off the queue. -/
def hostMove (op : HostOp) (s : State) : Result :=
  match op with
  | .tx width w => transact width w s
  | .poll => pollMove s
  | .reset => .next s.clearEngine

/-- Who moves next. While BUSY = 0 the engine has no step, so only the host can move; with nothing to present no one
moves. While BUSY = 1 and the host has something to present, the draw decides; a schedule with no draw left is the
engine's (log entry 2). -/
def State.mover (s : State) : Option Agent :=
  if s.busy then
    if s.queue.isEmpty then some .engine else some (s.sched.headD .engine)
  else if s.queue.isEmpty then none else some .host

/-- A draw is used only when both agents could move. It goes to the end of the list: the schedule repeats, so every
finite interleaving is the run of some value of `sched` (log entry 2). -/
def State.drawn (s : State) : State :=
  if s.busy && !s.queue.isEmpty then { s with sched := s.sched.tail ++ s.sched.take 1 } else s

/-- One move of one agent. With no move enabled the engine keeps all its state (60_exceptions.md R238). -/
def agentStep (s : State) : Result :=
  match s.mover with
  | none => .next s
  | some .engine => .next (engineStep s.drawn)
  | some .host =>
    match s.queue with
    | [] => .next s
    | op :: rest => hostMove op { s.drawn with queue := rest }

/-- Present a transaction word so that it is the very next move: at the head of the queue, and while BUSY = 1 with the
draw that gives the host the move. -/
def State.present (w : TxWord) (s : State) : State :=
  { s with
    queue := .tx 8 w :: s.queue
    sched := if s.busy then .host :: s.sched else s.sched }

end Sys2Proof.Machine
end

