-- ==== Sys2Proof/Machine/Step.lean ====
section
/-! DEFINITION. The step function, and how an instruction comes to be the next one a step runs. -/

namespace Sys2Proof.Machine

/-- One move of one agent: an engine step or a host operation (00_scope.md R14). -/
def step (s : State) : Host.Outcome State Fault Refusal := agentStep s

/-- The state with the instruction whose bits are `w` presented as the host's next transaction. The engine fetches
nothing (20_memory.md R61): a transaction comes from the host, which `queue` stands for (log entry 4). -/
def State.withFetchWord (s : State) (_nbits w : Nat) : State := s.present (BitVec.ofNat 73 w)

end Sys2Proof.Machine
end

