-- ==== Sys2Proof/WellFormed.lean ====
section
/-! DEFINITION. Which host assembly is well formed (30_encoding.md R87, R88; 20_memory.md R51). An `Instr` needs no
check of its own: its index fields are `Fin 16` and `Fin 8` and its data is one 64-bit word, so every `Instr` is
well formed. -/

namespace Sys2Proof

/-- `M[i]` exists for i = 0..15 and `DIGEST[i]` for i = 0..7 (20_memory.md R51). -/
def Reg.wf : Reg → Bool
  | .m i => i < 16
  | .digest i => i < 8
  | .config | .msglen | .cmd | .status | .tLo | .tHi => true

/-- A written value has 64 bits (R87), `LDBLK` takes 0 to 128 bytes and `LDKEY` the key's 1 to 64 (R88). -/
def Stmt.wf : Stmt → Bool
  | .wr r value => r.wf && value < 2 ^ 64
  | .rd r => r.wf
  | .cmd _ => true
  | .poll => true
  | .ldblk bytes => bytes.length ≤ 128
  | .ldkey bytes => 1 ≤ bytes.length && bytes.length ≤ 64

end Sys2Proof
end

