-- ==== Sys2Proof/Machine/HostAsm.lean ====
section
/-! DEFINITION. The host assembly turned into host operations (30_encoding.md R87, R88), and the host's one-shot
protocol (43_driver.md R186). -/

namespace Sys2Proof.Machine

/-- The write transaction of a 64-bit value to a register. -/
def writeOp (r : Reg) (value : Word) : HostOp := .tx 8 (txWord true r.addr value)

/-- LDBLK: write M[i] for i = 0 .. ceil(n/8) - 1, a short last group filled with zero bytes; nothing for n = 0
(30_encoding.md R88). -/
def loadBlockOps (bytes : List Byte) : List HostOp :=
  (List.range ((bytes.length + 7) / 8)).map fun i => writeOp (.m i) (le64 ((bytes.drop (8 * i)).take 8))

/-- The operations a statement stands for (30_encoding.md R87, R88). -/
def Stmt.ops : Stmt → List HostOp
  | .wr r value => [writeOp r (BitVec.ofNat 64 value)]
  | .rd r => [.tx 8 (txWord false r.addr 0)]
  | .cmd c => [writeOp .cmd c.opcode]
  | .poll => [.poll]
  | .ldblk bytes => loadBlockOps bytes
  | .ldkey bytes => loadBlockOps bytes

/-- A program is its statements' operations in order; a statement that is not well formed is no program. -/
def assemble (program : List Stmt) : Option (List HostOp) :=
  if program.all Stmt.wf then some (program.flatMap Stmt.ops) else none

/-- The 128-byte chunks of a message in order, the last possibly short, none for the empty message. The first argument
bounds the number of chunks. -/
def chunks : Nat → List Byte → List (List Byte)
  | 0, _ => []
  | n + 1, bytes => if bytes.isEmpty then [] else bytes.take 128 :: chunks n (bytes.drop 128)

/-- The statements that hand one block to the engine (43_driver.md R186). -/
def blockStmts (load : Stmt) : List Stmt := [load, .cmd .next, .poll]

/-- The blocks of the protocol in order: the key, the message's chunks, and the single all-zero block of the empty
unkeyed message (43_driver.md R186). -/
def blocksProgram (key message : List Byte) : List Stmt :=
  (if key.length > 0 then blockStmts (.ldkey key) else []) ++
  (chunks (message.length / 128 + 1) message).flatMap (fun c => blockStmts (.ldblk c)) ++
  (if key.length = 0 ∧ message.length = 0 then [.cmd .next, .poll] else [])

/-- The host's sequence for `hash(message, key, hashLen)` (43_driver.md R186). -/
def hashProgram (key message : List Byte) (nn : Nat) : List Stmt :=
  [.wr .config ((key.length <<< 8) ||| nn), .wr .msglen message.length, .cmd .init] ++
  blocksProgram key message ++
  (List.range ((nn + 7) / 8)).map (fun i => .rd (.digest i)) ++
  [.rd .status, .cmd .wipe]

end Sys2Proof.Machine
end

