-- ==== Sys2Proof/Machine/Reference.lean ====
section
/-! DEFINITION. The algorithm as the document's one-shot function, without the engine: the combined stream, its blocks,
and the digest (42_message_assembler.md R150 to R153, 43_driver.md R185). Nothing the machine does calls it. -/

namespace Sys2Proof.Machine

/-- The key block: the key right-padded with zero bytes to 128 (42_message_assembler.md R151). -/
def keyBlock (key : List Byte) : List Byte := key ++ List.replicate (128 - key.length) 0

/-- The combined stream: the key block when there is a key, then the message (42_message_assembler.md R150). -/
def combinedStream (key message : List Byte) : List Byte :=
  if key.length > 0 then keyBlock key ++ message else message

/-- Up to 128 bytes as 16 little-endian words, missing bytes 0 (10_state.md R23, 42_message_assembler.md R158). -/
def blockWords (bytes : List Byte) : Vector Word 16 :=
  Vector.ofFn fun i => le64 ((bytes.drop (8 * i.val)).take 8)

/-- H after INIT: IV with the parameter word XORed into word 0 (43_driver.md R170, R172). -/
def initialHash (kk nn : Byte) : Vector Word 8 := iv.set 0 (iv[0] ^^^ paramWord kk nn)

/-- Compress the rest of the stream: full blocks while more than 128 bytes remain, then the final block, the counter
being the stream bytes up to and including the block (42_message_assembler.md R155, R156, R159). The first argument
bounds the number of blocks. -/
def hashBlocks : Nat → Vector Word 8 → Count → List Byte → Vector Word 8
  | 0, h, _, _ => h
  | n + 1, h, t, stream =>
    if stream.length ≤ 128 then compressF h (blockWords stream) (t + BitVec.ofNat 128 stream.length) true
    else hashBlocks n (compressF h (blockWords (stream.take 128)) (t + 128) false) (t + 128) (stream.drop 128)

/-- The final hash state of a message, a key and a digest length. -/
def hashState (key message : List Byte) (nn : Nat) : Vector Word 8 :=
  let stream := combinedStream key message
  hashBlocks (stream.length / 128 + 1) (initialHash (BitVec.ofNat 8 key.length) (BitVec.ofNat 8 nn)) 0 stream

/-- The digest: the first `nn` bytes of the final hash state (43_driver.md R185). -/
def blake2b (key message : List Byte) (nn : Nat) : List Byte :=
  ((List.finRange 64).map (hashByte (hashState key message nn))).take nn

end Sys2Proof.Machine
end

