-- ==== Sys2Proof/Safety.lean ====
section
/-! DEFINITION. The terms the claims are stated in: the invariants of the machine, the error a transaction has to raise
written from the register map and not from the decoder, and what the host can observe. -/

namespace Sys2Proof.Machine

/-- The sequencing position (10_state.md R31 to R33): (RND, GIX) is (0, 0) while BUSY = 0, no mix belongs to round 12,
and the engine is busy only in PHASE = ACTIVE. -/
abbrev State.Sequenced (s : State) : Prop :=
  (s.busy = false → s.rnd = 0 ∧ s.gix = 0) ∧ (s.rnd = 12 → s.gix = 0) ∧ (s.busy = true → s.phase = .active)

/-- In PHASE = IDLE nothing of any hash is held: every element that only INIT and NEXT write has its reset value
(10_state.md R31, R45). -/
abbrev State.IdleIsClean (s : State) : Prop :=
  s.phase = .idle →
    s.h = Vector.replicate 8 0 ∧ s.v = Vector.replicate 16 0 ∧ s.t = 0 ∧ s.remain = 0 ∧ s.kl = 0 ∧ s.hl = 0 ∧
      s.keypend = false ∧ s.lastf = false

/-- Outside IDLE the latched configuration is a legal one (10_state.md R28, 43_driver.md R171). -/
abbrev State.LatchedLegal (s : State) : Prop := s.phase ≠ .idle → legalConfig s.kl s.hl = true

/-- The counters (10_state.md R25, R30; 42_message_assembler.md R155, R156, R159): T and REMAIN together are a combined
length, T counts whole blocks until the last one, and LASTF says that nothing remains. -/
abbrev State.Counted (s : State) : Prop :=
  s.t.toNat + s.remain.toNat ≤ 2 ^ 64 + 127 ∧
  (s.lastf = false → s.t.toNat % 128 = 0) ∧
  (s.lastf = true → s.remain = 0) ∧
  (s.phase = .done → s.lastf = true) ∧
  (s.phase = .active → s.busy = false → s.lastf = false) ∧
  (s.busy = true → s.lastf = false → 0 < s.remain.toNat)

/-- The key block (10_state.md R29; 42_message_assembler.md R156): KEYPEND is 1 only for a keyed hash that has taken no
message block, and the whole key block is still to come or is the block in flight. -/
abbrev State.KeyBlockPending (s : State) : Prop :=
  s.keypend = true →
    s.phase = .active ∧ 0 < s.kl.toNat ∧ (s.busy = false → s.t = 0 ∧ 128 ≤ s.remain.toNat) ∧ (s.busy = true → s.t = 128)

/-- The invariant of the control state. -/
abbrev State.Inv (s : State) : Prop :=
  s.Sequenced ∧ s.IdleIsClean ∧ s.LatchedLegal ∧ s.Counted ∧ s.KeyBlockPending

/-- How many mixes of the compression in flight are done (10_state.md R33). -/
def State.mixesDone (s : State) : Nat := 8 * s.rnd.val + s.gix.val

/-- How many engine steps the compression in flight still takes (41_compression.md R141). -/
def State.stepsLeft (s : State) : Nat := if s.busy then 97 - s.mixesDone else 0

/-- While BUSY = 1, V is what the mixes done so far make of the seeded V (41_compression.md R123 to R129, R140). -/
abbrev State.TracksF (s : State) : Prop :=
  s.busy = true → s.v = mixes s.m s.mixesDone (seedV s.h s.t s.lastf)

/-- The error a transaction has to raise, from the checks of 60_exceptions.md R228 in their order and the address ranges
of R224 to R226; `none` when the transaction is performed. Written without the decoder. -/
def dueError (w : TxWord) (s : State) : ErrCode :=
  let we := txIsWrite w
  let a := (txAddr w).toNat
  let d := (txData w).toNat
  if s.busy ∧ ¬ (we = false ∧ a = 0x03) then .busy
  else if (0x06 ≤ a ∧ a ≤ 0x0F) ∨ 0x28 ≤ a ∨ (we ∧ (a = 0x03 ∨ a = 0x04 ∨ a = 0x05 ∨ (0x20 ≤ a ∧ a ≤ 0x27))) ∨
      (we = false ∧ a = 0x02) then .access
  else if we ∧ a = 0x02 ∧ d ≠ 1 ∧ d ≠ 2 ∧ d ≠ 3 then .illegalCmd
  else if (we ∧ a = 0x02 ∧ d = 2 ∧ s.phase ≠ .active) ∨ (we = false ∧ 0x20 ≤ a ∧ a ≤ 0x27 ∧ s.phase ≠ .done) then .seq
  else if we ∧ a = 0x02 ∧ d = 1 ∧
      ¬ ((s.config.toNat / 256) ≤ 64 ∧ 1 ≤ s.config.toNat % 256 ∧ s.config.toNat % 256 ≤ 64) then .config
  else .none

/-- The next move is the host's transaction that decodes to this instruction. -/
def State.Runs (s : State) (i : Instr) : Prop :=
  s.mover = some .host ∧ ∃ w rest, s.queue = .tx 8 w :: rest ∧ decode w = .instr i

/-- The next move is an INIT that is accepted: BUSY = 0 and a legal configuration (43_driver.md R171, R172). -/
def State.AcceptsInit (s : State) : Prop :=
  s.Runs .cmdInit ∧ s.busy = false ∧ legalConfig (keyLen s.config) (hashLen s.config) = true

/-- The next move is a NEXT that is accepted: BUSY = 0 and PHASE = ACTIVE (43_driver.md R173). -/
def State.AcceptsNext (s : State) : Prop := s.Runs .cmdNext ∧ s.busy = false ∧ s.phase = .active

/-- The next move is a WIPE that is accepted: BUSY = 0 (43_driver.md R174). -/
def State.AcceptsWipe (s : State) : Prop := s.Runs .cmdWipe ∧ s.busy = false

/-- A reset is the next move (70_reset_and_hazards.md R250). -/
def State.PresentsReset (s : State) : Prop :=
  s.mover = some .host ∧ ∃ rest, s.queue = .reset :: rest

/-- The next move is the engine's finalize step (41_compression.md R142). -/
def State.Finalizes (s : State) : Prop := s.mover = some .engine ∧ s.rnd = 12

/-- Weak fairness of the engine (70_reset_and_hazards.md R258): the schedule draws the engine again and again. -/
def fairSchedule (sched : List Agent) : Prop := sched = [] ∨ Agent.engine ∈ sched

/-- Every transaction still to come is a whole-word one (20_memory.md R54). -/
def wholeWords (queue : List HostOp) : Prop := ∀ op ∈ queue, ∀ width w, op = .tx width w → width = 8

/-- How many NEXTs a combined stream of `n` remaining bytes takes (42_message_assembler.md R153). -/
def blocksLeft (n : Nat) : Nat := max 1 ((n + 127) / 128)

/-- What a host that reads no digest can tell of a state: everything but H, V, and the elements that show only through
them. -/
def sameButHidden (s s' : State) : Prop :=
  s' = { s with h := s'.h, v := s'.v }

/-- Run host operations one after another in the fused form that 41_compression.md R141 allows: an accepted NEXT is
followed at once by its 97 engine steps, so a POLL ends at its first STATUS read. -/
def runFused : List HostOp → State → Option State
  | [], s => some s
  | .tx width w :: ops, s =>
    match transact width w s with
    | .next t => runFused ops (if t.busy then engineRun 97 t else t)
    | .fault _ => none
    | .refused _ => none
  | .poll :: ops, s => runFused ops (s.reply (statusWord s))
  | .reset :: ops, s => runFused ops s.clearEngine

end Sys2Proof.Machine
end

