-- ==== Sys2Proof/Certificates/Slice0/Obligations.lean ====
section
/-! DEFINITION. The statements for the provers. `errcode := if s.errcode = .none then e else s.errcode` is `raise e` of
60_exceptions.md R223, written out. -/

open Sys2Proof Sys2Proof.Machine

/-! ## Encoding -/

/-- Words written out from 30_encoding.md R70 to R73 (the programs of 95_test_vectors.md) decode to the transactions
they stand for, and illegal ones are rejected by name. -/
def Obligations.SampleWordsDecode : Prop :=
  decode 0x1000000000000000040 = .instr (.wrConfig 0x40) ∧
  decode 0x0000000000000000000 = .instr .rdConfig ∧
  decode 0x10100000000000000C8 = .instr (.wrMsglen 200) ∧
  decode 0x0010000000000000000 = .instr .rdMsglen ∧
  decode 0x1020000000000000001 = .instr .cmdInit ∧
  decode 0x1020000000000000002 = .instr .cmdNext ∧
  decode 0x1020000000000000003 = .instr .cmdWipe ∧
  decode 0x0030000000000000000 = .instr .rdStatus ∧
  decode 0x0040000000000000000 = .instr .rdTLo ∧
  decode 0x0050000000000000000 = .instr .rdTHi ∧
  decode 0x11F7F7E7D7C7B7A7978 = .instr (.wrM 15 0x7F7E7D7C7B7A7978) ∧
  decode 0x0110000000000000000 = .instr (.rdM 1) ∧
  decode 0x0270000000000000000 = .instr (.rdDigest 7) ∧
  decode 0x1020000000000000100 = .rejected .illegalCommand ∧
  decode 0x0020000000000000000 = .rejected .writeOnlyRegister ∧
  decode 0x1030000000000000000 = .rejected .readOnlyRegister ∧
  decode 0x0280000000000000000 = .rejected .reservedAddress

/-- Decoding an encoded instruction gives it back, every operand at every value (30_encoding.md R70, R72, R73). -/
def Obligations.EncodeThenDecodeIsTheInstruction : Prop :=
  ∀ i : Instr, decode (encode i) = .instr i

/-- Each word has one meaning: encoding what a word decodes to gives the word back, a read with its WDATA cleared. The
cleared WDATA is the model's choice of a canonical word (log entry 11); R71 makes it a don't-care. -/
def Obligations.DecodeThenEncodeIsTheWord : Prop :=
  ∀ (w : TxWord) (i : Instr), decode w = .instr i →
    encode i = if txIsWrite w then w else w &&& 0x1FF0000000000000000

/-- The decoder accepts exactly the words of spec/opcode_table.json, and gives each word an instruction of its own row. -/
def Obligations.DecoderAcceptsExactlyTheTable : Prop :=
  ∀ w : TxWord,
    (∀ i, decode w = .instr i → i.row.holds w = true) ∧
    ((∃ r ∈ opcodeTable, r.holds w = true) ↔ ∃ i, decode w = .instr i)

/-- No word is of two rows of spec/opcode_table.json. -/
def Obligations.TableRowsNeverOverlap : Prop :=
  opcodeTable.Pairwise fun r r' => ∀ w : TxWord, ¬ (r.holds w = true ∧ r'.holds w = true)

/-- 30_encoding.md R71: a read returns one RDATA word, a refused one 0, whatever its WDATA; a write returns nothing. -/
def Obligations.ReadsReplyAndIgnoreWdata : Prop :=
  ∀ (addr : Addr) (d : Word) (s : State),
    transact 8 (txWord false addr d) s = transact 8 (txWord false addr 0) s ∧
    (∃ t rdata, transact 8 (txWord false addr d) s = .next t ∧ t.replies = rdata :: s.replies ∧
      (dueError (txWord false addr d) s ≠ .none → rdata = 0)) ∧
    (∃ t, transact 8 (txWord true addr d) s = .next t ∧ t.replies = s.replies)

/-! ## Errors -/

/-- 60_exceptions.md R226, 30_encoding.md R82, R83: the accesses that the register map does not allow raise ACCESS; a
read then returns 0 and nothing else changes. -/
def Obligations.DisallowedAccessesRaiseAccess : Prop :=
  ∀ (we : Bool) (addr : Addr) (d : Word) (s : State), s.busy = false →
    ((we = true ∧ (addr = 0x03 ∨ addr = 0x04 ∨ addr = 0x05 ∨ (0x20 ≤ addr.toNat ∧ addr.toNat ≤ 0x27))) ∨
      (we = false ∧ addr = 0x02) ∨
      (0x06 ≤ addr.toNat ∧ addr.toNat ≤ 0x0F) ∨ (0x28 ≤ addr.toNat ∧ addr.toNat ≤ 0xFF)) →
    transact 8 (txWord we addr d) s =
      .next { s with errcode := if s.errcode = .none then .access else s.errcode,
                     replies := if we then s.replies else 0 :: s.replies }

/-- 30_encoding.md R81, 60_exceptions.md R225: a CMD word other than 1, 2 and 3 raises ILLEGAL_CMD, or BUSY while
BUSY = 1, and changes nothing else. -/
def Obligations.IllegalCommandWordsRaiseIllegalCmd : Prop :=
  ∀ (d : Word) (s : State), ((d.extractLsb' 0 8).toNat ∉ [1, 2, 3] ∨ d.extractLsb' 8 56 ≠ 0) →
    (s.busy = false → transact 8 (txWord true 0x02 d) s =
      .next { s with errcode := if s.errcode = .none then .illegalCmd else s.errcode }) ∧
    (s.busy = true → transact 8 (txWord true 0x02 d) s =
      .next { s with errcode := if s.errcode = .none then .busy else s.errcode })

/-- 60_exceptions.md R224: while BUSY = 1 every transaction except a read of STATUS is refused with BUSY and has no
effect; the compression in flight is untouched. -/
def Obligations.BusyRefusesAllButStatus : Prop :=
  ∀ (w : TxWord) (s : State), s.busy = true →
    (¬ (txIsWrite w = false ∧ txAddr w = 0x03) → transact 8 w s =
      .next { s with errcode := if s.errcode = .none then .busy else s.errcode,
                     replies := if txIsWrite w then s.replies else 0 :: s.replies }) ∧
    (txIsWrite w = false ∧ txAddr w = 0x03 →
      transact 8 w s = .next { s with replies := statusWord s :: s.replies })

/-- 60_exceptions.md R228: the checks in their fixed order, from the address ranges and not from the decoder. A
transaction that fails one raises exactly that error; one that fails none raises none. An engine step raises none. -/
def Obligations.ChecksFollowTheFixedOrder : Prop :=
  ∀ (w : TxWord) (s : State),
    (dueError w s ≠ .none → transact 8 w s =
      .next { s with errcode := if s.errcode = .none then dueError w s else s.errcode,
                     replies := if txIsWrite w then s.replies else 0 :: s.replies }) ∧
    (dueError w s = .none → ∃ i t, decode w = .instr i ∧ transact 8 w s = exec i s ∧ exec i s = .next t ∧
      (t.errcode = s.errcode ∨ t.errcode = .none)) ∧
    (engineStep s).errcode = s.errcode

/-- 60_exceptions.md R223: a raise writes ERRCODE only when it is 0 and nothing else; while ERRCODE is not 0, a
transaction without an error still takes its full effect. -/
def Obligations.FirstErrorWinsAndMasksNothing : Prop :=
  (∀ (e : ErrCode) (s : State),
    s.raise e = { s with errcode := if s.errcode = .none then e else s.errcode }) ∧
  (∀ (w : TxWord) (s t : State) (e : ErrCode), dueError w s = .none → transact 8 w s = .next t →
    ∃ u, transact 8 w { s with errcode := e } = .next u ∧
      u = { t with errcode := u.errcode, replies := u.replies } ∧
      (txAddr w ≠ 0x03 → u.replies = t.replies))

/-- 60_exceptions.md R229: ERRCODE leaves a non-zero value only for 0, and only by an accepted INIT, an accepted WIPE or
a reset, each of which clears it. -/
def Obligations.ErrcodeClearedOnlyByInitWipeReset : Prop :=
  ∀ s t : State, step s = .next t →
    (s.errcode ≠ .none → t.errcode ≠ s.errcode →
      t.errcode = .none ∧ (s.AcceptsInit ∨ s.AcceptsWipe ∨ s.PresentsReset)) ∧
    (s.AcceptsInit ∨ s.AcceptsWipe ∨ s.PresentsReset → t.errcode = .none)

/-- 60_exceptions.md R222: NEXT outside ACTIVE and RD DIGEST outside DONE raise SEQ and do nothing else. -/
def Obligations.OutOfPhaseRaisesSeq : Prop :=
  ∀ s : State, s.busy = false →
    (s.phase = .idle ∨ s.phase = .done → exec .cmdNext s =
      .next { s with errcode := if s.errcode = .none then .seq else s.errcode }) ∧
    (s.phase = .idle ∨ s.phase = .active → ∀ i : Fin 8, exec (.rdDigest i) s =
      .next { s with errcode := if s.errcode = .none then .seq else s.errcode, replies := 0 :: s.replies })

/-! ## Commands -/

/-- 43_driver.md R170, R171, R172, 60_exceptions.md R221: the outcome of INIT. While BUSY = 0 a legal configuration
starts a hash, whatever the phase, and an illegal one raises CONFIG and changes nothing else; while BUSY = 1 it raises
BUSY and changes nothing else. -/
def Obligations.InitStartsAHashOrRaisesConfig : Prop :=
  ∀ s : State,
    let kk := s.config.extractLsb' 8 8
    let nn := s.config.extractLsb' 0 8
    (s.busy = false → kk.toNat ≤ 64 ∧ 1 ≤ nn.toNat ∧ nn.toNat ≤ 64 → exec .cmdInit s =
      .next { s with
        h := Vector.ofFn fun i =>
          if i = 0 then iv.get 0 ^^^ (0x01010000 ^^^ (kk.setWidth 64 <<< 8) ^^^ nn.setWidth 64) else iv.get i,
        t := 0, kl := kk, hl := nn,
        remain := BitVec.ofNat 128 (s.msglen.toNat + if 0 < kk.toNat then 128 else 0),
        keypend := decide (0 < kk.toNat), lastf := false, phase := .active, errcode := .none }) ∧
    (s.busy = false → ¬ (kk.toNat ≤ 64 ∧ 1 ≤ nn.toNat ∧ nn.toNat ≤ 64) → exec .cmdInit s =
      .next { s with errcode := if s.errcode = .none then .config else s.errcode }) ∧
    (s.busy = true → exec .cmdInit s =
      .next { s with errcode := if s.errcode = .none then .busy else s.errcode })

/-- 42_message_assembler.md R155 to R159, 41_compression.md R123 to R125: what an accepted NEXT does in its transaction.
The last-block decision and the byte count come from REMAIN, the bytes from the pad position on become 0, both counters
move by the byte count, V is seeded word by word, and BUSY starts; nothing else changes. -/
def Obligations.NextTakesABlock : Prop :=
  ∀ s : State, s.busy = false → s.phase = .active →
    let last := decide (s.remain.toNat ≤ 128)
    let n := if last then s.remain.toNat else 128
    let start := if s.keypend then s.kl.toNat else n
    ∃ t : State, exec .cmdNext s = .next t ∧
      t = { s with lastf := last, m := t.m, t := s.t + BitVec.ofNat 128 n, remain := s.remain - BitVec.ofNat 128 n,
                   v := t.v, rnd := 0, gix := 0, busy := true } ∧
      (∀ j : Fin 128, blockByte t.m j = if start ≤ j.val then 0 else blockByte s.m j) ∧
      (∀ i : Fin 8, t.v.get ⟨i.val, by omega⟩ = s.h.get i) ∧
      (∀ i : Fin 8, t.v.get ⟨i.val + 8, by omega⟩ =
        if i = 4 then iv.get 4 ^^^ t.t.extractLsb' 0 64
        else if i = 5 then iv.get 5 ^^^ t.t.extractLsb' 64 64
        else if i = 6 ∧ last = true then ~~~ (iv.get 6)
        else iv.get i)

/-- 43_driver.md R174, 10_state.md R45: WIPE puts every element of the state at its reset value, in every phase; while
BUSY = 1 it is refused. That RND and GIX are cleared too, against the column of 10_state.md R20, is the model's reading
(log entry 14); that the host's queue, replies and draws are kept is the model's choice (log entries 2, 4, 5). -/
def Obligations.WipeErasesAllState : Prop :=
  ∀ s : State,
    (s.busy = false → exec .cmdWipe s =
      .next { h := Vector.ofFn fun _ => 0, v := Vector.ofFn fun _ => 0, m := Vector.ofFn fun _ => 0, t := 0, remain := 0,
              config := 0, msglen := 0, kl := 0, hl := 0, keypend := false, lastf := false, phase := .idle,
              busy := false, rnd := 0, gix := 0, errcode := .none,
              queue := s.queue, replies := s.replies, sched := s.sched }) ∧
    (s.busy = true → exec .cmdWipe s =
      .next { s with errcode := if s.errcode = .none then .busy else s.errcode })

/-! ## Register accesses -/

/-- 43_driver.md R175, R177, R178: each register write while BUSY = 0 stores its value, in every phase, and changes
nothing else; while BUSY = 1 it raises BUSY and stores nothing. -/
def Obligations.WritesStoreTheirRegister : Prop :=
  ∀ (s : State) (d : Word),
    (s.busy = false →
      exec (.wrConfig d) s = .next { s with config := BitVec.ofNat 16 (d.toNat % 2 ^ 16) } ∧
      exec (.wrMsglen d) s = .next { s with msglen := d } ∧
      ∀ i : Fin 16, exec (.wrM i d) s =
        .next { s with m := Vector.ofFn fun k => if k = i then d else s.m.get k }) ∧
    (s.busy = true → ∀ i : Instr, i = .wrConfig d ∨ i = .wrMsglen d ∨ (∃ k, i = .wrM k d) →
      exec i s = .next { s with errcode := if s.errcode = .none then .busy else s.errcode })

/-- 43_driver.md R176, R179, R180, R181, R184: each register read while BUSY = 0 returns its register and changes
nothing; while BUSY = 1 it raises BUSY and returns 0. -/
def Obligations.ReadsReturnTheirRegister : Prop :=
  ∀ s : State,
    (s.busy = false →
      exec .rdConfig s = .next { s with replies := BitVec.ofNat 64 s.config.toNat :: s.replies } ∧
      exec .rdMsglen s = .next { s with replies := s.msglen :: s.replies } ∧
      exec .rdTLo s = .next { s with replies := BitVec.ofNat 64 (s.t.toNat % 2 ^ 64) :: s.replies } ∧
      exec .rdTHi s = .next { s with replies := BitVec.ofNat 64 (s.t.toNat / 2 ^ 64) :: s.replies } ∧
      ∀ i : Fin 16, exec (.rdM i) s = .next { s with replies := s.m.get i :: s.replies }) ∧
    (s.busy = true → ∀ i : Instr, i = .rdConfig ∨ i = .rdMsglen ∨ i = .rdTLo ∨ i = .rdTHi ∨ (∃ k, i = .rdM k) →
      exec i s = .next { s with errcode := if s.errcode = .none then .busy else s.errcode, replies := 0 :: s.replies })

/-- 43_driver.md R183, 30_encoding.md R75: RD STATUS is accepted in every state, returns the five fields at their bits
with every reserved bit 0, and changes nothing. -/
def Obligations.StatusReadIsAlwaysAccepted : Prop :=
  ∀ s : State, ∃ x : Word, exec .rdStatus s = .next { s with replies := x :: s.replies } ∧
    x.toNat = s.busy.toNat +
      2 * (match s.phase with | .idle => 0 | .active => 1 | .done => 2) +
      8 * s.keypend.toNat + 16 * s.lastf.toNat +
      256 * (match s.errcode with
        | .none => 0 | .config => 1 | .seq => 2 | .busy => 3 | .illegalCmd => 4 | .access => 5)

/-- 43_driver.md R182, 10_state.md R38: RD DIGEST in DONE returns the bytes of H[i] below HL and 0 from HL on, and changes
nothing; in another phase it raises SEQ, while BUSY = 1 it raises BUSY, and it then returns 0. -/
def Obligations.DigestReadMasksTheHash : Prop :=
  ∀ (s : State) (i : Fin 8),
    (s.busy = false → s.phase = .done → ∃ x : Word, exec (.rdDigest i) s = .next { s with replies := x :: s.replies } ∧
      ∀ k < 8, x.extractLsb' (8 * k) 8 =
        if 8 * i.val + k < s.hl.toNat then (s.h.get i).extractLsb' (8 * k) 8 else 0) ∧
    (s.busy = false → s.phase ≠ .done → exec (.rdDigest i) s =
      .next { s with errcode := if s.errcode = .none then .seq else s.errcode, replies := 0 :: s.replies }) ∧
    (s.busy = true → exec (.rdDigest i) s =
      .next { s with errcode := if s.errcode = .none then .busy else s.errcode, replies := 0 :: s.replies })

/-- 20_memory.md R57: a read is idempotent, and one that raises no error has no side effect. -/
def Obligations.ReadsAreIdempotent : Prop :=
  ∀ (w : TxWord) (s t u : State), txIsWrite w = false → transact 8 w s = .next t → transact 8 w t = .next u →
    u.replies.head? = t.replies.head? ∧ (dueError w s = .none → t = { s with replies := t.replies })

/-- The frame of every transaction that is no command (10_state.md R20, 30_encoding.md R86): only CONFIG, MSGLEN, M,
ERRCODE and the replies can change; a read changes neither CONFIG, MSGLEN nor any byte of the block, and a WR M changes
no byte outside its own word. -/
def Obligations.OnlyCommandsTouchTheHash : Prop :=
  ∀ (w : TxWord) (s t : State), transact 8 w s = .next t → ¬ (txIsWrite w = true ∧ txAddr w = 0x02) →
    t = { s with config := t.config, msglen := t.msglen, m := t.m, errcode := t.errcode, replies := t.replies } ∧
    (txAddr w ≠ 0x00 ∨ txIsWrite w = false → t.config = s.config) ∧
    (txAddr w ≠ 0x01 ∨ txIsWrite w = false → t.msglen = s.msglen) ∧
    (∀ j : Fin 128, (txAddr w).toNat ≠ 0x10 + j.val / 8 ∨ txIsWrite w = false → blockByte t.m j = blockByte s.m j)

/-! ## The whole machine -/

/-- 10_state.md R20, the column "written by": which moves can change each element. ERRCODE moves from 0 to the due error
of the transaction presented, or is cleared. That WIPE can clear RND and GIX is log entry 14; the premise on the
sequencing position rules out the states in which it would show. -/
def Obligations.ElementsAreWrittenOnlyByTheirRules : Prop :=
  ∀ s t : State, s.Sequenced → step s = .next t →
    (t.h ≠ s.h → s.AcceptsInit ∨ s.Finalizes ∨ s.AcceptsWipe ∨ s.PresentsReset) ∧
    (t.v ≠ s.v → s.AcceptsNext ∨ s.mover = some .engine ∨ s.AcceptsWipe ∨ s.PresentsReset) ∧
    (t.m ≠ s.m → (∃ i d, s.Runs (.wrM i d)) ∨ s.AcceptsNext ∨ s.AcceptsWipe ∨ s.PresentsReset) ∧
    (t.t ≠ s.t ∨ t.remain ≠ s.remain ∨ t.lastf ≠ s.lastf →
      s.AcceptsInit ∨ s.AcceptsNext ∨ s.AcceptsWipe ∨ s.PresentsReset) ∧
    (t.config ≠ s.config → (∃ d, s.Runs (.wrConfig d)) ∨ s.AcceptsWipe ∨ s.PresentsReset) ∧
    (t.msglen ≠ s.msglen → (∃ d, s.Runs (.wrMsglen d)) ∨ s.AcceptsWipe ∨ s.PresentsReset) ∧
    (t.kl ≠ s.kl ∨ t.hl ≠ s.hl → s.AcceptsInit ∨ s.AcceptsWipe ∨ s.PresentsReset) ∧
    (t.keypend ≠ s.keypend ∨ t.phase ≠ s.phase →
      s.AcceptsInit ∨ s.Finalizes ∨ s.AcceptsWipe ∨ s.PresentsReset) ∧
    (t.busy ≠ s.busy → s.AcceptsNext ∨ s.Finalizes ∨ s.PresentsReset) ∧
    (t.rnd ≠ s.rnd ∨ t.gix ≠ s.gix → s.mover = some .engine ∨ s.PresentsReset) ∧
    (t.errcode ≠ s.errcode → s.AcceptsInit ∨ s.AcceptsWipe ∨ s.PresentsReset ∨
      (s.errcode = .none ∧ s.mover = some .host ∧
        ∃ w rest, s.queue = .tx 8 w :: rest ∧ t.errcode = dueError w s))

/-- 10_state.md R31: every change of PHASE and what makes it. -/
def Obligations.PhaseMovesAsTheStateMachineSays : Prop :=
  ∀ s t : State, s.Sequenced → step s = .next t → t.phase ≠ s.phase →
    (t.phase = .active ∧ (s.phase = .idle ∨ s.phase = .done) ∧ s.AcceptsInit) ∨
    (t.phase = .done ∧ s.phase = .active ∧ s.Finalizes ∧ s.lastf = true) ∨
    (t.phase = .idle ∧ (s.AcceptsWipe ∨ s.PresentsReset))

/-- The invariant of the control state holds after every step, from every state in which it holds. -/
def Obligations.InvariantIsKept : Prop :=
  ∀ s t : State, s.Inv → step s = .next t → t.Inv

/-- The invariants hold after reset. -/
def Obligations.InvariantsHoldAtReset : Prop := State.reset.Inv ∧ State.reset.TracksF

/-- A whole-word transaction at the head of the queue is run by the step as its decoded instruction or its rejection,
on the state with it taken off the queue and, while BUSY = 1, one draw used (20_memory.md R56, R58; the queue and the
schedule are the model's own, log entries 2 and 4). -/
def Obligations.StepRunsTheDecodedInstruction : Prop :=
  ∀ (s : State) (w : TxWord) (rest : List HostOp), s.queue = .tx 8 w :: rest →
    (s.busy = false →
      (∀ i, decode w = .instr i → step s = exec i { s with queue := rest }) ∧
      (∀ r, decode w = .rejected r → step s = execRejected r (txIsWrite w) { s with queue := rest })) ∧
    (∀ draws, s.busy = true → s.sched = .host :: draws →
      (∀ i, decode w = .instr i → step s = exec i { s with queue := rest, sched := draws ++ [.host] }) ∧
      (∀ r, decode w = .rejected r →
        step s = execRejected r (txIsWrite w) { s with queue := rest, sched := draws ++ [.host] })) ∧
    (∀ draws, s.busy = true → s.sched = .engine :: draws →
      step s = .next (engineStep { s with sched := draws ++ [.engine] }))

/-- A step stops only on a transaction that is not a whole word (20_memory.md R54), and then by that refusal. -/
def Obligations.OnlyNarrowTransactionsStop : Prop :=
  ∀ s : State,
    (s.mover = some .host ∧ (∃ width w rest, s.queue = .tx width w :: rest ∧ width ≠ 8) →
      step s = .refused .notWholeWord) ∧
    (¬ (s.mover = some .host ∧ ∃ width w rest, s.queue = .tx width w :: rest ∧ width ≠ 8) → ∃ t, step s = .next t)

/-- 60_exceptions.md R238: an idle engine takes no step and keeps all its state. That the step then answers the same
state is the model's reading (log entry 3). -/
def Obligations.IdleEngineKeepsItsState : Prop :=
  ∀ s : State, s.busy = false →
    (s.queue = [] → step s = .next s) ∧
    (s.mover ≠ some .engine)

/-- 70_reset_and_hazards.md R250, R251, 10_state.md R45: a reset puts every element at its reset value, whatever the
state, and STATUS then reads 0. That a reset is an operation of the queue is the model's reading (log entry 7), and that
it keeps the rest of the queue and the replies is the model's choice (log entries 4, 5). -/
def Obligations.ResetPutsEveryElementAtItsResetValue : Prop :=
  ∀ s : State, s.PresentsReset → ∃ t : State, step s = .next t ∧
    t = { State.reset with queue := s.queue.tail, replies := s.replies, sched := t.sched } ∧
    (∀ i, t.h.get i = 0) ∧ (∀ i, t.v.get i = 0) ∧ (∀ i, t.m.get i = 0) ∧ t.t = 0 ∧ t.remain = 0 ∧
    t.config = 0 ∧ t.msglen = 0 ∧ t.kl = 0 ∧ t.hl = 0 ∧ t.keypend = false ∧ t.lastf = false ∧ t.busy = false ∧
    t.phase = .idle ∧ t.rnd = 0 ∧ t.gix = 0 ∧ t.errcode = .none ∧ statusWord t = 0 ∧ t.mover ≠ some .engine

/-- 30_encoding.md R88: POLL reads STATUS, and goes on exactly while BUSY = 1 is read. That it stays at the head of the
queue meanwhile is the model's form of the repetition (log entry 13). -/
def Obligations.PollRepeatsWhileBusy : Prop :=
  ∀ (s : State) (rest : List HostOp), s.queue = .poll :: rest →
    (s.busy = false → step s = .next { s with replies := statusWord s :: s.replies, queue := rest }) ∧
    (∀ draws, s.busy = true → s.sched = .host :: draws → step s =
      .next { s with replies := statusWord s :: s.replies, sched := draws ++ [.host] })

/-! ## state_mixer -/

/-- 40_state_mixer.md R100 to R102: addition wraps modulo 2^64 and no carry is kept; XOR is bitwise. -/
def Obligations.ArxPrimitivesAsStated : Prop :=
  ∀ a b x : Word,
    (add64 a b).toNat = (a.toNat + b.toNat) % 2 ^ 64 ∧
    (add3 a b x).toNat = (a.toNat + b.toNat + x.toNat) % 2 ^ 64 ∧
    ∀ k < 64, (xor64 a b).getLsbD k = (a.getLsbD k ^^ b.getLsbD k)

/-- 40_state_mixer.md R104 to R107: the four rotations as the two parts they swap, `{x[n-1:0], x[63:n]}`, and bit by
bit; ROTR32 is its own inverse. -/
def Obligations.RotationsSwapTheirParts : Prop :=
  ∀ x : Word,
    (rotr32 x).toNat = x.toNat % 2 ^ 32 * 2 ^ 32 + x.toNat / 2 ^ 32 ∧
    (rotr24 x).toNat = x.toNat % 2 ^ 24 * 2 ^ 40 + x.toNat / 2 ^ 24 ∧
    (rotr16 x).toNat = x.toNat % 2 ^ 16 * 2 ^ 48 + x.toNat / 2 ^ 16 ∧
    (rotr63 x).toNat = x.toNat % 2 ^ 63 * 2 ^ 1 + x.toNat / 2 ^ 63 ∧
    rotr32 (rotr32 x) = x ∧
    ∀ n : Nat, n ∈ [32, 24, 16, 63] → ∀ k < 64, (rotr64 x n).getLsbD k = x.getLsbD ((k + n) % 64)

/-- 40_state_mixer.md R108, R110: G is its eight statements, with the right rotations 32, 24, 16 and 63 in that order. -/
def Obligations.GIsItsEightStatements : Prop :=
  ∀ a b c d x y : Word,
    let a1 := a + b + x
    let d1 := (d ^^^ a1).rotateRight 32
    let c1 := c + d1
    let b1 := (b ^^^ c1).rotateRight 24
    let a2 := a1 + b1 + y
    let d2 := (d1 ^^^ a2).rotateRight 16
    let c2 := c1 + d2
    let b2 := (b1 ^^^ c2).rotateRight 63
    mixG ⟨a, b, c, d⟩ x y = ⟨a2, b2, c2, d2⟩

/-- 40_state_mixer.md R108: for fixed x and y, G is a bijection on (a, b, c, d). -/
def Obligations.GIsABijection : Prop :=
  ∀ x y : Word, (∀ w w' : Mixed, mixG w x y = mixG w' x y → w = w') ∧ ∀ r : Mixed, ∃ w : Mixed, mixG w x y = r

/-- 40_state_mixer.md R109: G in place reads and writes the four distinct positions of its quadruple and no other word. -/
def Obligations.GInPlaceTouchesOnlyItsPositions : Prop :=
  ∀ (j : Fin 8) (x y : Word) (v : Vector Word 16),
    let q := quads.get j
    let r := mixG ⟨v.get q.ia, v.get q.ib, v.get q.ic, v.get q.id⟩ x y
    q.ia ≠ q.ib ∧ q.ia ≠ q.ic ∧ q.ia ≠ q.id ∧ q.ib ≠ q.ic ∧ q.ib ≠ q.id ∧ q.ic ≠ q.id ∧
    ∀ k : Fin 16, (mixAt j x y v).get k =
      if k = q.ia then r.a else if k = q.ib then r.b else if k = q.ic then r.c else if k = q.id then r.d else v.get k

/-! ## Compression engine -/

/-- 41_compression.md R120: IV[i] is the first 64 bits of the fractional part of the square root of the i-th prime:
with w the whole part of the root, w·2^64 + IV[i] is the root of p·2^128 rounded down. The values are from general
knowledge by the spec's own word (log entry 9); this says that they fit the description. -/
def Obligations.IvIsTheFractionOfSquareRoots : Prop :=
  ∀ i : Fin 8,
    let p := (#v[2, 3, 5, 7, 11, 13, 17, 19] : Vector Nat 8).get i
    let w := (#v[1, 1, 2, 2, 3, 3, 4, 4] : Vector Nat 8).get i
    let root := w * 2 ^ 64 + (iv.get i).toNat
    w ^ 2 < p ∧ p < (w + 1) ^ 2 ∧ root ^ 2 ≤ p * 2 ^ 128 ∧ p * 2 ^ 128 < (root + 1) ^ 2

/-- 41_compression.md R121, R122, R127: each SIGMA row is a permutation of 0..15, rounds 10 and 11 reuse rows 0 and 1,
the first four quadruples are the columns of V as a 4 x 4 square and the last four its diagonals. -/
def Obligations.RoundTablesAsStated : Prop :=
  (∀ (row : Fin 10) (w : Fin 16), ∃ k : Fin 16, (sigma.get row).get k = w) ∧
  (∀ r : Nat, r < 10 → ∃ row : Fin 10, row.val = r ∧ sigmaRow r = sigma.get row) ∧
  sigmaRow 10 = sigma.get 0 ∧ sigmaRow 11 = sigma.get 1 ∧
  ∀ j : Fin 4,
    let column := quads.get ⟨j.val, by omega⟩
    let diagonal := quads.get ⟨j.val + 4, by omega⟩
    column.ia.val = j.val ∧ column.ib.val = 4 + j.val ∧ column.ic.val = 8 + j.val ∧ column.id.val = 12 + j.val ∧
    diagonal.ia.val = j.val ∧ diagonal.ib.val = 4 + (j.val + 1) % 4 ∧ diagonal.ic.val = 8 + (j.val + 2) % 4 ∧
    diagonal.id.val = 12 + (j.val + 3) % 4

/-- 41_compression.md R128: two mixes of one group, both columns or both diagonals, can be done in either order. -/
def Obligations.MixesOfOneGroupCommute : Prop :=
  ∀ (j k : Fin 8) (x y x' y' : Word) (v : Vector Word 16), j ≠ k → (j.val < 4 ↔ k.val < 4) →
    mixAt j x y (mixAt k x' y' v) = mixAt k x' y' (mixAt j x y v)

/-- 41_compression.md R140, R142, R130: the engine's step is one mix of round RND, advancing (RND, GIX), or for RND = 12
the finalize step; nothing else changes. -/
def Obligations.EngineStepMixesOrFinalizes : Prop :=
  ∀ s : State,
    (∀ h : s.rnd.val < 12,
      let row := sigma.get ⟨s.rnd.val % 10, by omega⟩
      let x := s.m.get (row.get ⟨2 * s.gix.val, by omega⟩)
      let y := s.m.get (row.get ⟨2 * s.gix.val + 1, by omega⟩)
      engineStep s = { s with
        v := mixAt s.gix x y s.v
        gix := if s.gix = 7 then 0 else s.gix + 1
        rnd := if s.gix = 7 then ⟨s.rnd.val + 1, by omega⟩ else s.rnd }) ∧
    (s.rnd = 12 → engineStep s = { s with
      h := Vector.ofFn fun i => s.h.get i ^^^ s.v.get ⟨i.val, by omega⟩ ^^^ s.v.get ⟨i.val + 8, by omega⟩
      keypend := false
      phase := if s.lastf then .done else .active
      rnd := 0, gix := 0, busy := false })

/-- 41_compression.md R131, R141: the 97 engine steps after an accepted NEXT leave exactly F of the hash state, the
padded block, the counter and the flag in H; BUSY is 1 until the last of them. -/
def Obligations.NinetySevenEngineStepsComputeF : Prop :=
  ∀ s t : State, s.busy = false → s.phase = .active → exec .cmdNext s = .next t →
    engineRun 97 t = { t with
      h := compressF s.h t.m t.t t.lastf
      v := mixes t.m 96 (seedV s.h t.t t.lastf)
      keypend := false
      phase := if t.lastf then .done else .active
      rnd := 0, gix := 0, busy := false } ∧
    ∀ k < 97, (engineRun k t).busy = true

/-- 41_compression.md R140: while BUSY = 1, V is what the mixes done so far make of the seeded V. Every step keeps this,
under every schedule and whatever the host does. -/
def Obligations.EngineTracksFUnderEverySchedule : Prop :=
  ∀ s t : State, s.Sequenced → s.TracksF → step s = .next t → t.TracksF

/-- 41_compression.md R140: the step that ends a compression, unless it is a reset, leaves F in H, so the result does not
depend on how host transactions interleaved with the engine's steps. -/
def Obligations.CompressionResultIsFUnderEverySchedule : Prop :=
  ∀ s t : State, s.Sequenced → s.TracksF → step s = .next t → s.busy = true → t.busy = false → ¬ s.PresentsReset →
    t.h = compressF s.h s.m s.t s.lastf ∧ t.phase = (if s.lastf then .done else .active)

/-- 41_compression.md R140, 60_exceptions.md R224: while BUSY = 1 no move of the host but a reset changes anything of the
compression: only ERRCODE, the replies, the queue and the schedule can change. -/
def Obligations.HostCannotDisturbACompression : Prop :=
  ∀ s t : State, s.busy = true → s.mover = some .host → ¬ s.PresentsReset → step s = .next t →
    t = { s with errcode := t.errcode, replies := t.replies, queue := t.queue, sched := t.sched }

/-- 41_compression.md R141: an accepted NEXT has 97 engine steps before it; each engine step takes one off, a host move
other than a reset none. -/
def Obligations.EachNextTakesNinetySevenEngineSteps : Prop :=
  (∀ s t : State, s.busy = false → s.phase = .active → exec .cmdNext s = .next t → t.stepsLeft = 97) ∧
  (∀ s t : State, s.Sequenced → s.busy = true → step s = .next t →
    (s.mover = some .engine → t.stepsLeft + 1 = s.stepsLeft) ∧
    (s.mover = some .host → ¬ s.PresentsReset → t.stepsLeft = s.stepsLeft))

/-- 70_reset_and_hazards.md R258: under a fair schedule every compression ends: BUSY = 0 is reached. The bound in the
number of moves comes from the repeating schedule, which is the model's own (log entry 2). -/
def Obligations.FairScheduleEndsEveryCompression : Prop :=
  ∀ s : State, s.Sequenced → s.busy = true → fairSchedule s.sched → wholeWords s.queue →
    ∃ n t, n ≤ 98 * (s.sched.length + 1) ∧ Host.Core.run Sys2Proof.core n s = .next t ∧ State.busy t = false

/-! ## message_assembler -/

/-- 10_state.md R25, 42_message_assembler.md R159: NEXT moves the block's bytes from REMAIN to T, and neither counter
wraps. -/
def Obligations.NextConservesTheCombinedLength : Prop :=
  ∀ s t : State, s.Inv → s.busy = false → s.phase = .active → exec .cmdNext s = .next t →
    t.t.toNat + t.remain.toNat = s.t.toNat + s.remain.toNat ∧
    t.t.toNat = s.t.toNat + min 128 s.remain.toNat ∧
    t.remain.toNat = s.remain.toNat - min 128 s.remain.toNat

/-- 42_message_assembler.md R153: a stream takes max(1, ceil(RLEN / 128)) blocks, all but the last full and non-final. -/
def Obligations.StreamTakesItsNumberOfBlocks : Prop :=
  (∀ s t : State, s.AcceptsInit → step s = .next t →
    t.remain.toNat = s.msglen.toNat + (if 0 < (keyLen s.config).toNat then 128 else 0)) ∧
  (∀ s t : State, s.busy = false → s.phase = .active → exec .cmdNext s = .next t →
    (t.lastf = true ↔ blocksLeft s.remain.toNat = 1) ∧
    (t.lastf = false → blocksLeft t.remain.toNat + 1 = blocksLeft s.remain.toNat ∧ t.t = s.t + 128))

/-- 42_message_assembler.md R160: the empty unkeyed message is one all-zero block with LASTF = 1 and T = 0. -/
def Obligations.EmptyUnkeyedMessageIsOneZeroBlock : Prop :=
  ∀ s : State, s.busy = false → keyLen s.config = 0 → 1 ≤ (hashLen s.config).toNat → (hashLen s.config).toNat ≤ 64 →
    s.msglen = 0 →
    ∃ t u : State, exec .cmdInit s = .next t ∧ exec .cmdNext t = .next u ∧ u.busy = true ∧ u.lastf = true ∧ u.t = 0 ∧
      u.remain = 0 ∧ (∀ j : Fin 128, blockByte u.m j = 0) ∧ (engineRun 97 u).phase = .done

/-- 42_message_assembler.md R161, R162: a full last block is compressed once, as the final block, and is not padded; the
key block of an empty message is key block and final block at once, counts 128 bytes and is zero from KL on. -/
def Obligations.FullFinalBlocks : Prop :=
  ∀ s : State, s.busy = false → s.phase = .active → s.remain = 128 →
    ∃ t : State, exec .cmdNext s = .next t ∧ t.lastf = true ∧ t.t = s.t + 128 ∧ t.remain = 0 ∧
      (s.keypend = false → t.m = s.m) ∧
      (s.keypend = true → ∀ j : Fin 128, blockByte t.m j = if s.kl.toNat ≤ j.val then 0 else blockByte s.m j) ∧
      (engineRun 97 t).phase = .done ∧ (engineRun 97 t).keypend = false

/-- 30_encoding.md R88, 10_state.md R23: LDBLK of n bytes puts them in block bytes 0..n-1, fills its last word with 0 and
leaves the words after it; nothing else changes. -/
def Obligations.LoadBlockPutsTheBytesInPlace : Prop :=
  ∀ (bytes : List Byte) (s : State), bytes.length ≤ 128 → s.busy = false →
    ∃ t : State, runFused (loadBlockOps bytes) s = some t ∧ t = { s with m := t.m } ∧
      ∀ j : Fin 128, blockByte t.m j =
        if j.val < (bytes.length + 7) / 8 * 8 then bytes.getD j.val 0 else blockByte s.m j

/-! ## Driver -/

/-- 43_driver.md R170: for a legal configuration the three terms of the parameter word occupy disjoint bytes. -/
def Obligations.ParameterWordTermsAreDisjoint : Prop :=
  ∀ kk nn : Byte, legalConfig kk nn = true →
    paramWord kk nn = (0x01010000 ||| (kk.setWidth 64 <<< 8) ||| nn.setWidth 64) ∧
    (paramWord kk nn).toNat = 0x01010000 + 256 * kk.toNat + nn.toNat

/-- 10_state.md R21, R22, 43_driver.md R188: before DONE nothing the host reads depends on H or V. -/
def Obligations.HashIsHiddenUntilDone : Prop :=
  ∀ (s s' t t' : State) (w : TxWord), sameButHidden s s' → s.phase ≠ .done →
    transact 8 w s = .next t → transact 8 w s' = .next t' → t'.replies = t.replies ∧ sameButHidden t t'

/-- 10_state.md R38, R44: in DONE the host learns the digest bytes below HL and nothing else of H, and nothing of V. -/
def Obligations.DigestRevealsOnlyBytesBelowHl : Prop :=
  ∀ (s s' t t' : State) (w : TxWord), sameButHidden s s' →
    (∀ j : Fin 64, j.val < s.hl.toNat → hashByte s'.h j = hashByte s.h j) →
    transact 8 w s = .next t → transact 8 w s' = .next t' → t'.replies = t.replies

/-- 43_driver.md R187: INIT is accepted in every phase while BUSY = 0, and the new hash keeps no trace of the old one. -/
def Obligations.RestartKeepsNoTraceOfTheOldHash : Prop :=
  ∀ s s' : State, s.busy = false → legalConfig (keyLen s.config) (hashLen s.config) = true →
    s' = { s with h := s'.h, t := s'.t, remain := s'.remain, kl := s'.kl, hl := s'.hl, keypend := s'.keypend,
                  lastf := s'.lastf, phase := s'.phase, errcode := s'.errcode } →
    ∃ t, exec .cmdInit s = .next t ∧ exec .cmdInit s' = .next t ∧ t.m = s.m ∧ t.phase = .active

/-- 70_reset_and_hazards.md R256, 10_state.md R28: writing CONFIG and MSGLEN after INIT changes nothing of the block a
NEXT takes or of its compression. -/
def Obligations.LaterConfigurationIsInert : Prop :=
  ∀ (s a b t : State) (d d' : Word), s.busy = false →
    exec (.wrConfig d) s = .next a → exec (.wrMsglen d') a = .next b → exec .cmdNext s = .next t →
    exec .cmdNext b = .next { t with config := b.config, msglen := b.msglen } ∧
    ∀ n, engineRun n { t with config := b.config, msglen := b.msglen } =
      { engineRun n t with config := b.config, msglen := b.msglen }

/-- 20_memory.md R52: on a platform that maps the space onto byte addresses, each byte of each register has an address
of its own, the eight bytes of a register being consecutive from BUS_BASE + 8·ADDR, whatever BUS_BASE is. -/
def Obligations.RegisterBytesHaveTheirOwnAddresses : Prop :=
  ∀ (a a' : Addr) (k k' : Fin 8),
    regByteAddr a k = Config.busBase + 8 * a.toNat + k.val ∧
    (regByteAddr a k = regByteAddr a' k' → a = a' ∧ k = k')

/-- 43_driver.md R185, R186, 42_message_assembler.md R150 to R154: for every key, message and digest length in range, the
host's protocol run from any state with BUSY = 0 ends in DONE with ERRCODE = 0, and the digest words read then hold the
digest of the one-shot algorithm. The run is the fused form of 41_compression.md R141. -/
def Obligations.HostProtocolComputesTheDigest : Prop :=
  ∀ (key message : List Byte) (nn : Nat) (s : State),
    key.length ≤ 64 → 1 ≤ nn → nn ≤ 64 → message.length < 2 ^ 64 → s.busy = false →
    ∃ ops t,
      assemble ([.wr .config ((key.length <<< 8) ||| nn), .wr .msglen message.length, .cmd .init] ++
        blocksProgram key message) = some ops ∧
      runFused ops s = some t ∧ t.busy = false ∧ t.phase = .done ∧ t.errcode = .none ∧
      t.h = hashState key message nn ∧
      ∀ i : Fin 8, ∃ x : Word, exec (.rdDigest i) t = .next { t with replies := x :: t.replies } ∧
        ∀ k < 8, 8 * i.val + k < nn → (blake2b key message nn)[8 * i.val + k]? = some (byteOf x k)
end

