-- ==== Sys2Proof/Laws/Bytes.lean ====
section
/-! SUPPORT. Words and their bytes: building a word from bytes and reading a byte back are inverse. -/

namespace Sys2Proof.Machine

/-- Byte k of a word built from bytes is the byte it was built from. -/
@[simp] theorem byteOf_wordOfBytes (b : Nat → Byte) (k : Nat) (hk : k < 8) : byteOf (wordOfBytes b) k = b k := by
  have hcases : k = 0 ∨ k = 1 ∨ k = 2 ∨ k = 3 ∨ k = 4 ∨ k = 5 ∨ k = 6 ∨ k = 7 := by omega
  apply BitVec.eq_of_getLsbD_eq
  intro i hi
  rcases hcases with rfl | rfl | rfl | rfl | rfl | rfl | rfl | rfl <;>
    simp (disch := omega) [byteOf, wordOfBytes, hi, BitVec.getLsbD_of_ge, decide_eq_true, decide_eq_false]

/-- Two words with the same eight bytes are the same word. -/
theorem word_ext_bytes (x y : Word) (h : ∀ k < 8, byteOf x k = byteOf y k) : x = y := by
  apply BitVec.eq_of_getLsbD_eq
  intro i hi
  have hb := congrArg (fun b : Byte => b.getLsbD (i % 8)) (h (i / 8) (by omega))
  simpa [byteOf, BitVec.getLsbD_extractLsb', Nat.mod_lt, show 8 * (i / 8) + i % 8 = i by omega] using hb

/-- Byte k of `keepBelow` is kept below the position and 0 from it on. -/
@[simp] theorem byteOf_keepBelow (n i : Nat) (x : Word) (k : Nat) (hk : k < 8) :
    byteOf (keepBelow n i x) k = if 8 * i + k < n then byteOf x k else 0 := by
  simp [keepBelow, hk]

/-- Byte k of `le64` is byte k of the list, or 0 past its end. -/
@[simp] theorem byteOf_le64 (bytes : List Byte) (k : Nat) (hk : k < 8) : byteOf (le64 bytes) k = bytes.getD k 0 := by
  simp only [le64, byteOf_wordOfBytes _ k hk]

/-- A word below the position is kept whole. -/
theorem keepBelow_of_le (n i : Nat) (x : Word) (h : 8 * i + 8 ≤ n) : keepBelow n i x = x :=
  word_ext_bytes _ _ fun k hk => by rw [byteOf_keepBelow n i x k hk, if_pos (by omega)]

/-- A word at or beyond the position becomes 0. -/
theorem keepBelow_of_ge (n i : Nat) (x : Word) (h : n ≤ 8 * i) : keepBelow n i x = 0 :=
  word_ext_bytes _ _ fun k hk => by
    rw [byteOf_keepBelow n i x k hk, if_neg (by omega)]
    simp [byteOf]

end Sys2Proof.Machine
end

