-- ==== Sys2Proof/Laws/Decode.lean ====
section
/-! SUPPORT. The three fields of a transaction word. -/

namespace Sys2Proof

@[simp] theorem txIsWrite_txWord (we : Bool) (addr : Addr) (d : Word) : txIsWrite (txWord we addr d) = we := by
  cases we <;> simp [txIsWrite, txWord]

@[simp] theorem txAddr_txWord (we : Bool) (addr : Addr) (d : Word) : txAddr (txWord we addr d) = addr := by
  apply BitVec.eq_of_getLsbD_eq; intro i hi
  simp (disch := omega) [txAddr, txWord, BitVec.getLsbD_of_ge, decide_eq_true, decide_eq_false]

@[simp] theorem txData_txWord (we : Bool) (addr : Addr) (d : Word) : txData (txWord we addr d) = d := by
  apply BitVec.eq_of_getLsbD_eq; intro i hi
  simp (disch := omega) [txData, txWord, hi, decide_eq_true]

/-- A word is its three fields (30_encoding.md R70). -/
theorem txWord_fields (w : TxWord) : txWord (txIsWrite w) (txAddr w) (txData w) = w := by
  apply BitVec.eq_of_getLsbD_eq; intro i hi
  by_cases h1 : i < 64
  · simp (disch := omega) [txWord, txIsWrite, txAddr, txData, decide_eq_true]
  · by_cases h2 : i < 72
    · have h4 : 64 + (i - 64) = i := by omega
      simp (disch := omega) [txWord, txIsWrite, txAddr, txData, decide_eq_true, decide_eq_false, h4]
    · have h3 : i = 72 := by omega
      subst h3; simp [txWord, txIsWrite, txAddr, txData, BitVec.getLsbD_of_ge]

/-- Every word of the interface has fields: a case split over them. -/
theorem txWord_cases (w : TxWord) : ∃ we addr d, w = txWord we addr d :=
  ⟨txIsWrite w, txAddr w, txData w, (txWord_fields w).symm⟩

end Sys2Proof
end

