-- ==== Sys2Proof/Laws/State.lean ====
section
/-! SUPPORT. What each named operation on State leaves in each field. -/

namespace Sys2Proof.Machine

variable (s : State) (e : ErrCode) (x : Word)

@[simp] theorem raise_h : (s.raise e).h = s.h := by unfold State.raise; split <;> rfl
@[simp] theorem raise_v : (s.raise e).v = s.v := by unfold State.raise; split <;> rfl
@[simp] theorem raise_m : (s.raise e).m = s.m := by unfold State.raise; split <;> rfl
@[simp] theorem raise_t : (s.raise e).t = s.t := by unfold State.raise; split <;> rfl
@[simp] theorem raise_remain : (s.raise e).remain = s.remain := by unfold State.raise; split <;> rfl
@[simp] theorem raise_config : (s.raise e).config = s.config := by unfold State.raise; split <;> rfl
@[simp] theorem raise_msglen : (s.raise e).msglen = s.msglen := by unfold State.raise; split <;> rfl
@[simp] theorem raise_kl : (s.raise e).kl = s.kl := by unfold State.raise; split <;> rfl
@[simp] theorem raise_hl : (s.raise e).hl = s.hl := by unfold State.raise; split <;> rfl
@[simp] theorem raise_keypend : (s.raise e).keypend = s.keypend := by unfold State.raise; split <;> rfl
@[simp] theorem raise_lastf : (s.raise e).lastf = s.lastf := by unfold State.raise; split <;> rfl
@[simp] theorem raise_phase : (s.raise e).phase = s.phase := by unfold State.raise; split <;> rfl
@[simp] theorem raise_busy : (s.raise e).busy = s.busy := by unfold State.raise; split <;> rfl
@[simp] theorem raise_rnd : (s.raise e).rnd = s.rnd := by unfold State.raise; split <;> rfl
@[simp] theorem raise_gix : (s.raise e).gix = s.gix := by unfold State.raise; split <;> rfl
@[simp] theorem raise_queue : (s.raise e).queue = s.queue := by unfold State.raise; split <;> rfl
@[simp] theorem raise_replies : (s.raise e).replies = s.replies := by unfold State.raise; split <;> rfl
@[simp] theorem raise_sched : (s.raise e).sched = s.sched := by unfold State.raise; split <;> rfl

theorem raise_errcode : (s.raise e).errcode = if s.errcode = .none then e else s.errcode := by
  unfold State.raise; split <;> rfl

/-- A raise is a write of ERRCODE alone (60_exceptions.md R223). -/
theorem raise_eq : s.raise e = { s with errcode := if s.errcode = .none then e else s.errcode } := by
  unfold State.raise; split <;> rfl

@[simp] theorem reply_h : (s.reply x).h = s.h := rfl
@[simp] theorem reply_v : (s.reply x).v = s.v := rfl
@[simp] theorem reply_m : (s.reply x).m = s.m := rfl
@[simp] theorem reply_t : (s.reply x).t = s.t := rfl
@[simp] theorem reply_remain : (s.reply x).remain = s.remain := rfl
@[simp] theorem reply_config : (s.reply x).config = s.config := rfl
@[simp] theorem reply_msglen : (s.reply x).msglen = s.msglen := rfl
@[simp] theorem reply_kl : (s.reply x).kl = s.kl := rfl
@[simp] theorem reply_hl : (s.reply x).hl = s.hl := rfl
@[simp] theorem reply_keypend : (s.reply x).keypend = s.keypend := rfl
@[simp] theorem reply_lastf : (s.reply x).lastf = s.lastf := rfl
@[simp] theorem reply_phase : (s.reply x).phase = s.phase := rfl
@[simp] theorem reply_busy : (s.reply x).busy = s.busy := rfl
@[simp] theorem reply_rnd : (s.reply x).rnd = s.rnd := rfl
@[simp] theorem reply_gix : (s.reply x).gix = s.gix := rfl
@[simp] theorem reply_errcode : (s.reply x).errcode = s.errcode := rfl
@[simp] theorem reply_queue : (s.reply x).queue = s.queue := rfl
@[simp] theorem reply_replies : (s.reply x).replies = x :: s.replies := rfl
@[simp] theorem reply_sched : (s.reply x).sched = s.sched := rfl

@[simp] theorem clearEngine_queue : s.clearEngine.queue = s.queue := rfl
@[simp] theorem clearEngine_replies : s.clearEngine.replies = s.replies := rfl
@[simp] theorem clearEngine_sched : s.clearEngine.sched = s.sched := rfl
@[simp] theorem clearEngine_phase : s.clearEngine.phase = .idle := rfl
@[simp] theorem clearEngine_busy : s.clearEngine.busy = false := rfl
@[simp] theorem clearEngine_errcode : s.clearEngine.errcode = .none := rfl

@[simp] theorem initState_v : (initState s).v = s.v := rfl
@[simp] theorem initState_m : (initState s).m = s.m := rfl
@[simp] theorem initState_config : (initState s).config = s.config := rfl
@[simp] theorem initState_msglen : (initState s).msglen = s.msglen := rfl
@[simp] theorem initState_t : (initState s).t = 0 := rfl
@[simp] theorem initState_kl : (initState s).kl = keyLen s.config := rfl
@[simp] theorem initState_hl : (initState s).hl = hashLen s.config := rfl
@[simp] theorem initState_remain : (initState s).remain = combinedLength s.msglen (keyLen s.config) := rfl
@[simp] theorem initState_keypend : (initState s).keypend = decide (keyLen s.config > 0) := rfl
@[simp] theorem initState_lastf : (initState s).lastf = false := rfl
@[simp] theorem initState_phase : (initState s).phase = .active := rfl
@[simp] theorem initState_busy : (initState s).busy = s.busy := rfl
@[simp] theorem initState_rnd : (initState s).rnd = s.rnd := rfl
@[simp] theorem initState_gix : (initState s).gix = s.gix := rfl
@[simp] theorem initState_errcode : (initState s).errcode = .none := rfl
@[simp] theorem initState_queue : (initState s).queue = s.queue := rfl
@[simp] theorem initState_replies : (initState s).replies = s.replies := rfl
@[simp] theorem initState_sched : (initState s).sched = s.sched := rfl

@[simp] theorem nextState_h : (nextState s).h = s.h := rfl
@[simp] theorem nextState_config : (nextState s).config = s.config := rfl
@[simp] theorem nextState_msglen : (nextState s).msglen = s.msglen := rfl
@[simp] theorem nextState_kl : (nextState s).kl = s.kl := rfl
@[simp] theorem nextState_hl : (nextState s).hl = s.hl := rfl
@[simp] theorem nextState_keypend : (nextState s).keypend = s.keypend := rfl
@[simp] theorem nextState_lastf : (nextState s).lastf = isLast s.remain := rfl
@[simp] theorem nextState_phase : (nextState s).phase = s.phase := rfl
@[simp] theorem nextState_busy : (nextState s).busy = true := rfl
@[simp] theorem nextState_rnd : (nextState s).rnd = 0 := rfl
@[simp] theorem nextState_gix : (nextState s).gix = 0 := rfl
@[simp] theorem nextState_errcode : (nextState s).errcode = s.errcode := rfl
@[simp] theorem nextState_queue : (nextState s).queue = s.queue := rfl
@[simp] theorem nextState_replies : (nextState s).replies = s.replies := rfl
@[simp] theorem nextState_sched : (nextState s).sched = s.sched := rfl

@[simp] theorem finalize_v : (finalize s).v = s.v := rfl
@[simp] theorem finalize_m : (finalize s).m = s.m := rfl
@[simp] theorem finalize_t : (finalize s).t = s.t := rfl
@[simp] theorem finalize_remain : (finalize s).remain = s.remain := rfl
@[simp] theorem finalize_kl : (finalize s).kl = s.kl := rfl
@[simp] theorem finalize_hl : (finalize s).hl = s.hl := rfl
@[simp] theorem finalize_lastf : (finalize s).lastf = s.lastf := rfl
@[simp] theorem finalize_keypend : (finalize s).keypend = false := rfl
@[simp] theorem finalize_busy : (finalize s).busy = false := rfl
@[simp] theorem finalize_rnd : (finalize s).rnd = 0 := rfl
@[simp] theorem finalize_gix : (finalize s).gix = 0 := rfl

/-- The draw touches `sched` alone. -/
theorem drawn_eq : s.drawn = { s with sched := s.drawn.sched } := by unfold State.drawn; split <;> rfl

@[simp] theorem drawn_h : s.drawn.h = s.h := by rw [drawn_eq]
@[simp] theorem drawn_v : s.drawn.v = s.v := by rw [drawn_eq]
@[simp] theorem drawn_m : s.drawn.m = s.m := by rw [drawn_eq]
@[simp] theorem drawn_t : s.drawn.t = s.t := by rw [drawn_eq]
@[simp] theorem drawn_remain : s.drawn.remain = s.remain := by rw [drawn_eq]
@[simp] theorem drawn_config : s.drawn.config = s.config := by rw [drawn_eq]
@[simp] theorem drawn_msglen : s.drawn.msglen = s.msglen := by rw [drawn_eq]
@[simp] theorem drawn_kl : s.drawn.kl = s.kl := by rw [drawn_eq]
@[simp] theorem drawn_hl : s.drawn.hl = s.hl := by rw [drawn_eq]
@[simp] theorem drawn_keypend : s.drawn.keypend = s.keypend := by rw [drawn_eq]
@[simp] theorem drawn_lastf : s.drawn.lastf = s.lastf := by rw [drawn_eq]
@[simp] theorem drawn_phase : s.drawn.phase = s.phase := by rw [drawn_eq]
@[simp] theorem drawn_busy : s.drawn.busy = s.busy := by rw [drawn_eq]
@[simp] theorem drawn_rnd : s.drawn.rnd = s.rnd := by rw [drawn_eq]
@[simp] theorem drawn_gix : s.drawn.gix = s.gix := by rw [drawn_eq]
@[simp] theorem drawn_errcode : s.drawn.errcode = s.errcode := by rw [drawn_eq]
@[simp] theorem drawn_queue : s.drawn.queue = s.queue := by rw [drawn_eq]
@[simp] theorem drawn_replies : s.drawn.replies = s.replies := by rw [drawn_eq]

end Sys2Proof.Machine
end

