-- ==== Sys2Proof/Laws/Exec.lean ====
section
/-! SUPPORT. Once for each shared operation, everything it can do; later proofs cite these and do not unfold the step. -/

namespace Sys2Proof.Machine

variable {s t : State}

/-- A refused transaction leaves this state: ERRCODE raised, and 0 returned by a read (60_exceptions.md R223). -/
def refusedState (isWrite : Bool) (e : ErrCode) (s : State) : State :=
  if isWrite then s.raise e else (s.raise e).reply 0

theorem refuse_eq (w : Bool) (e : ErrCode) (s : State) : refuse w e s = .next (refusedState w e s) := rfl

/-- A refused transaction changes ERRCODE and the replies, nothing else. -/
theorem refusedState_eq (w : Bool) (e : ErrCode) (s : State) :
    refusedState w e s =
      { s with errcode := if s.errcode = .none then e else s.errcode,
               replies := if w then s.replies else 0 :: s.replies } := by
  cases w <;> simp [refusedState, raise_eq, State.reply]

theorem unlessBusy_busy (w : Bool) (go : Result) (h : s.busy = true) :
    unlessBusy w s go = .next (refusedState w .busy s) := by simp [unlessBusy, h, refuse_eq]

theorem unlessBusy_free (w : Bool) (go : Result) (h : s.busy = false) : unlessBusy w s go = go := by
  simp [unlessBusy, h]

/-- A transaction's next state is its refusal, a reply, or, while BUSY = 0, the effect of a write or a command. -/
def Effect (i : Instr) (s t : State) : Prop :=
  (∃ w e, t = refusedState w e s) ∨
  (∃ x, t = s.reply x) ∨
  (s.busy = false ∧
    ((∃ d, i = .wrConfig d ∧ t = { s with config := configStored d }) ∨
     (∃ d, i = .wrMsglen d ∧ t = { s with msglen := d }) ∨
     (∃ k d, i = .wrM k d ∧ t = { s with m := s.m.set k d }) ∨
     (i = .cmdInit ∧ legalConfig (keyLen s.config) (hashLen s.config) = true ∧ t = initState s) ∨
     (i = .cmdNext ∧ s.phase = .active ∧ t = nextState s) ∨
     (i = .cmdWipe ∧ t = s.clearEngine)))

theorem Host_next_inj {a b : State} (h : (Host.Outcome.next a : Result) = .next b) : a = b := by
  injection h

/-- What an instruction can do. -/
theorem exec_cases {i : Instr} (h : exec i s = .next t) : Effect i s t := by
  cases hb : s.busy with
  | true =>
    cases i <;>
      first
        | (simp only [exec, execWrConfig, execRdConfig, execWrMsglen, execRdMsglen, execCmdInit, execCmdNext,
            execCmdWipe, execRdTLo, execRdTHi, execWrM, execRdM, execRdDigest, unlessBusy_busy _ _ hb] at h
           exact .inl ⟨_, _, (Host_next_inj h).symm⟩)
        | exact .inr (.inl ⟨_, (Host_next_inj h).symm⟩)
  | false =>
    cases i with
    | rdStatus => exact .inr (.inl ⟨_, (Host_next_inj h).symm⟩)
    | rdConfig | rdMsglen | rdTLo | rdTHi | rdM =>
      simp only [exec, execRdConfig, execRdMsglen, execRdTLo, execRdTHi, execRdM, unlessBusy_free _ _ hb] at h
      exact .inr (.inl ⟨_, (Host_next_inj h).symm⟩)
    | rdDigest k =>
      simp only [exec, execRdDigest, unlessBusy_free _ _ hb] at h
      split at h
      · exact .inr (.inl ⟨_, (Host_next_inj h).symm⟩)
      · exact .inl ⟨_, _, (Host_next_inj h).symm⟩
    | wrConfig d =>
      simp only [exec, execWrConfig, unlessBusy_free _ _ hb] at h
      exact .inr (.inr ⟨hb, .inl ⟨d, rfl, (Host_next_inj h).symm⟩⟩)
    | wrMsglen d =>
      simp only [exec, execWrMsglen, unlessBusy_free _ _ hb] at h
      exact .inr (.inr ⟨hb, .inr (.inl ⟨d, rfl, (Host_next_inj h).symm⟩)⟩)
    | wrM k d =>
      simp only [exec, execWrM, unlessBusy_free _ _ hb] at h
      exact .inr (.inr ⟨hb, .inr (.inr (.inl ⟨k, d, rfl, (Host_next_inj h).symm⟩))⟩)
    | cmdInit =>
      simp only [exec, execCmdInit, unlessBusy_free _ _ hb] at h
      split at h
      · exact .inr (.inr ⟨hb, .inr (.inr (.inr (.inl ⟨rfl, ‹_›, (Host_next_inj h).symm⟩)))⟩)
      · exact .inl ⟨_, _, (Host_next_inj h).symm⟩
    | cmdNext =>
      simp only [exec, execCmdNext, unlessBusy_free _ _ hb] at h
      split at h
      · exact .inr (.inr ⟨hb, .inr (.inr (.inr (.inr (.inl ⟨rfl, ‹_›, (Host_next_inj h).symm⟩))))⟩)
      · exact .inl ⟨_, _, (Host_next_inj h).symm⟩
    | cmdWipe =>
      simp only [exec, execCmdWipe, unlessBusy_free _ _ hb] at h
      exact .inr (.inr ⟨hb, .inr (.inr (.inr (.inr (.inr ⟨rfl, (Host_next_inj h).symm⟩))))⟩)

/-- Every instruction answers a next state: an error is recorded, never a stop (60_exceptions.md R230). -/
theorem exec_answers (i : Instr) (s : State) : ∃ t, exec i s = .next t := by
  cases i <;>
    simp only [exec, execWrConfig, execRdConfig, execWrMsglen, execRdMsglen, execCmdInit, execCmdNext, execCmdWipe,
      execRdStatus, execRdTLo, execRdTHi, execWrM, execRdM, execRdDigest, unlessBusy, refuse] <;>
    repeat' (first | exact ⟨_, rfl⟩ | split)

theorem execRejected_eq (r : Reject) (w : Bool) (s : State) :
    execRejected r w s = .next (refusedState w (if s.busy then .busy else rejectCode r) s) := by
  cases hb : s.busy
  · simp [execRejected, unlessBusy_free _ _ hb, refuse_eq]
  · simp [execRejected, unlessBusy_busy _ _ hb]

/-- A whole-word transaction is its instruction, or its rejection as an error. -/
theorem transact_instr {w : TxWord} {i : Instr} (h : decode w = .instr i) (s : State) : transact 8 w s = exec i s := by
  simp [transact, h]

theorem transact_rejected {w : TxWord} {r : Reject} (h : decode w = .rejected r) (s : State) :
    transact 8 w s = .next (refusedState (txIsWrite w) (if s.busy then .busy else rejectCode r) s) := by
  simp [transact, h, execRejected_eq]

theorem transact_narrow {width : Nat} (h : width ≠ 8) (w : TxWord) (s : State) :
    transact width w s = .refused .notWholeWord := by simp [transact, h]

/-- What a transaction can do: the effect of the instruction its word decodes to, or a refusal. -/
theorem transact_cases {width : Nat} {w : TxWord} (h : transact width w s = .next t) :
    width = 8 ∧ ((∃ i, decode w = .instr i ∧ exec i s = .next t) ∨
      (∃ r e, decode w = .rejected r ∧ t = refusedState (txIsWrite w) e s)) := by
  by_cases hw : width = 8
  · subst hw
    refine ⟨rfl, ?_⟩
    cases hd : decode w with
    | instr i => exact .inl ⟨i, rfl, by rwa [transact_instr hd] at h⟩
    | rejected r => exact .inr ⟨r, _, rfl, by rw [transact_rejected hd] at h; exact (Host_next_inj h).symm⟩
  · rw [transact_narrow hw] at h; cases h

theorem decode_encode_rdStatus : decode (encode .rdStatus) = .instr .rdStatus := by decide

/-- One read of a POLL: STATUS is returned, and the POLL stays at the head of the queue while BUSY = 1 is read. -/
theorem pollMove_eq (s : State) :
    pollMove s = .next (if pollAgain (s.reply (statusWord s))
      then { s.reply (statusWord s) with queue := .poll :: s.queue } else s.reply (statusWord s)) := by
  have h : transact 8 (encode .rdStatus) s = .next (s.reply (statusWord s)) := by
    rw [transact_instr decode_encode_rdStatus]; rfl
  simp only [pollMove, h, reply_queue]

/-- Who moves, when it is the engine: BUSY = 1. -/
theorem mover_engine (h : s.mover = some .engine) : s.busy = true := by
  unfold State.mover at h
  cases hb : s.busy
  · simp [hb] at h
  · rfl

/-- No agent moves exactly when BUSY = 0 and the host presents nothing. -/
theorem mover_none : s.mover = none ↔ s.busy = false ∧ s.queue = [] := by
  unfold State.mover
  cases s.busy <;> cases s.queue <;> simp

/-- The host moves only when it has something to present. -/
theorem mover_host (h : s.mover = some .host) : ∃ op rest, s.queue = op :: rest := by
  unfold State.mover at h
  cases hq : s.queue with
  | nil => cases hb : s.busy <;> simp [hb, hq] at h
  | cons op rest => exact ⟨op, rest, rfl⟩

/-- The host moves whenever BUSY = 0 and it has something to present. -/
theorem mover_free {op : HostOp} {rest : List HostOp} (hb : s.busy = false) (hq : s.queue = op :: rest) :
    s.mover = some .host := by
  simp [State.mover, hb, hq]

/-- With BUSY = 0 no draw is used. -/
theorem drawn_free (hb : s.busy = false) : s.drawn = s := by simp [State.drawn, hb]

/-- Everything a step can do. -/
theorem step_cases (h : step s = .next t) :
    (s.mover = none ∧ t = s) ∨
    (s.mover = some .engine ∧ t = engineStep s.drawn) ∨
    (∃ op rest, s.mover = some .host ∧ s.queue = op :: rest ∧ hostMove op { s.drawn with queue := rest } = .next t) := by
  unfold step agentStep at h
  cases hm : s.mover with
  | none => rw [hm] at h; exact .inl ⟨rfl, (Host_next_inj h).symm⟩
  | some a =>
    rw [hm] at h
    cases a with
    | engine => exact .inr (.inl ⟨rfl, (Host_next_inj h).symm⟩)
    | host =>
      obtain ⟨op, rest, hq⟩ := mover_host hm
      simp only [hq] at h
      exact .inr (.inr ⟨op, rest, rfl, hq, h⟩)

/-- A step in which the host moves. -/
theorem step_host {op : HostOp} {rest : List HostOp} (hm : s.mover = some .host) (hq : s.queue = op :: rest) :
    step s = hostMove op { s.drawn with queue := rest } := by
  simp [step, agentStep, hm, hq]

/-- A step in which the engine moves. -/
theorem step_engine (hm : s.mover = some .engine) : step s = .next (engineStep s.drawn) := by
  simp [step, agentStep, hm]

/-- A step in which no one moves. -/
theorem step_none (hm : s.mover = none) : step s = .next s := by
  simp [step, agentStep, hm]

/-- Everything an engine step can do: one mix, or the finalize step. -/
theorem engineStep_cases (s : State) :
    (∃ h : s.rnd.val < 12, s.gix = 7 ∧
      engineStep s = { s with v := roundMix s.m s.rnd.val s.gix s.v, gix := 0, rnd := ⟨s.rnd.val + 1, by omega⟩ }) ∨
    (s.rnd.val < 12 ∧ s.gix ≠ 7 ∧
      engineStep s = { s with v := roundMix s.m s.rnd.val s.gix s.v, gix := s.gix + 1 }) ∨
    (s.rnd = 12 ∧ engineStep s = finalize s) := by
  by_cases h : s.rnd.val < 12
  · by_cases hg : s.gix = 7
    · exact .inl ⟨h, hg, by simp only [engineStep, h, hg, dif_pos, if_pos]⟩
    · exact .inr (.inl ⟨h, hg, by simp only [engineStep, h, dif_pos, if_neg hg]⟩)
  · exact .inr (.inr ⟨Fin.ext (by have := s.rnd.isLt; change s.rnd.val = 12; omega),
      by simp [engineStep, h]⟩)

end Sys2Proof.Machine
end

