-- ==== Sys2Proof/Laws/PerInstr.lean ====
section
/-! SUPPORT. Families proved instruction by instruction. `RowMatch`: the encoder writes an instruction's row of
spec/opcode_table.json, that is, all the row's fixed bits. -/

namespace Sys2Proof.Laws.RowMatch

/-- The encoded word is of the instruction's row. -/
def Statement (i : Instr) : Prop := i.row.holds (encode i) = true

/-- A mask that covers WE and ADDR and no bit of WDATA reads only those two fields. -/
theorem holds_of_fields (p : TxWord) (we : Bool) (addr : Addr) (d : Word)
    (h : txWord we addr 0 &&& 0x1FF0000000000000000 = p) : Row.holds ⟨0x1FF0000000000000000, p⟩ (txWord we addr d) := by
  subst h
  simp only [Row.holds, beq_iff_eq]
  apply BitVec.eq_of_getLsbD_eq
  intro i hi
  simp only [BitVec.getLsbD_and]
  by_cases h1 : i < 64
  · have hm : (0x1FF0000000000000000 : TxWord).getLsbD i = false := by
      have : ∀ j : Fin 64, (0x1FF0000000000000000 : TxWord).getLsbD j.val = false := by decide
      exact this ⟨i, h1⟩
    rw [hm, Bool.and_false, Bool.and_false]
  · simp [txWord, BitVec.getLsbD_of_ge d i (by omega)]

theorem wrConfig (d : Word) : Statement (.wrConfig d) := holds_of_fields _ _ _ _ (by decide)
theorem rdConfig : Statement .rdConfig := by unfold Statement; decide
theorem wrMsglen (d : Word) : Statement (.wrMsglen d) := holds_of_fields _ _ _ _ (by decide)
theorem rdMsglen : Statement .rdMsglen := by unfold Statement; decide
theorem cmdInit : Statement .cmdInit := by unfold Statement; decide
theorem cmdNext : Statement .cmdNext := by unfold Statement; decide
theorem cmdWipe : Statement .cmdWipe := by unfold Statement; decide
theorem rdStatus : Statement .rdStatus := by unfold Statement; decide
theorem rdTLo : Statement .rdTLo := by unfold Statement; decide
theorem rdTHi : Statement .rdTHi := by unfold Statement; decide

theorem wrM (i : Fin 16) (d : Word) : Statement (.wrM i d) := by
  have h := holds_of_fields _ true (BitVec.ofNat 8 (0x10 + i.val)) d rfl
  have hk : ∀ k : Fin 16, (txWord true (BitVec.ofNat 8 (0x10 + k.val)) 0 &&& 0x1FF0000000000000000) &&&
      0x1F00000000000000000 = 0x1100000000000000000 := by decide
  have hm : (0x1FF0000000000000000 : TxWord) &&& 0x1F00000000000000000 = 0x1F00000000000000000 := by decide
  simp only [Row.holds, beq_iff_eq] at h
  simp only [Statement, Row.holds, Instr.row, encode, beq_iff_eq]
  rw [← hk i, ← h, BitVec.and_assoc, hm]

theorem rdM (i : Fin 16) : Statement (.rdM i) := by
  have h : ∀ k : Fin 16, (Instr.rdM k).row.holds (encode (.rdM k)) = true := by decide
  exact h i

theorem rdDigest (i : Fin 8) : Statement (.rdDigest i) := by
  have h : ∀ k : Fin 8, (Instr.rdDigest k).row.holds (encode (.rdDigest k)) = true := by decide
  exact h i

end Sys2Proof.Laws.RowMatch
end

