-- ==== Sys2Proof/Laws/Step.lean ====
section
/-! SUPPORT. One equation for each meaning while BUSY = 0, the refusal of each while BUSY = 1, and everything a step of
the whole machine can do. Later proofs about steps case-split these and unfold neither the step nor a meaning. -/

namespace Sys2Proof.Machine

variable {s t : State}

/-- The register writes while BUSY = 0 (43_driver.md R175, R177, R178). -/
theorem exec_writes (hb : s.busy = false) :
    (∀ d, exec (.wrConfig d) s = .next { s with config := configStored d }) ∧
    (∀ d, exec (.wrMsglen d) s = .next { s with msglen := d }) ∧
    (∀ i d, exec (.wrM i d) s = .next { s with m := s.m.set i d }) := by
  refine ⟨?_, ?_, ?_⟩ <;> intros <;> simp only [exec, execWrConfig, execWrMsglen, execWrM, unlessBusy_free _ _ hb]

/-- The register reads while BUSY = 0 (43_driver.md R176, R179 to R182, R184). -/
theorem exec_reads (hb : s.busy = false) :
    exec .rdConfig s = .next (s.reply (configWord s.config)) ∧
    exec .rdMsglen s = .next (s.reply s.msglen) ∧
    exec .rdTLo s = .next (s.reply (tLo s.t)) ∧
    exec .rdTHi s = .next (s.reply (tHi s.t)) ∧
    (∀ i, exec (.rdM i) s = .next (s.reply (s.m.get i))) ∧
    (∀ i, exec (.rdDigest i) s =
      if s.phase = .done then .next (s.reply (digestWord s.h s.hl i)) else .next (refusedState false .seq s)) := by
  refine ⟨?_, ?_, ?_, ?_, ?_, ?_⟩ <;> intros <;>
    simp only [exec, execRdConfig, execRdMsglen, execRdTLo, execRdTHi, execRdM, execRdDigest, unlessBusy_free _ _ hb,
      refuse_eq]

/-- The commands while BUSY = 0 (43_driver.md R172 to R174). -/
theorem exec_commands (hb : s.busy = false) :
    exec .cmdInit s =
      (if legalConfig (keyLen s.config) (hashLen s.config) = true then .next (initState s)
        else .next (refusedState true .config s)) ∧
    exec .cmdNext s =
      (if s.phase = .active then .next (nextState s) else .next (refusedState true .seq s)) ∧
    exec .cmdWipe s = .next s.clearEngine := by
  refine ⟨?_, ?_, ?_⟩ <;> simp only [exec, execCmdInit, execCmdNext, execCmdWipe, unlessBusy_free _ _ hb, refuse_eq]

/-- While BUSY = 1 every instruction but RD_STATUS is refused with BUSY (60_exceptions.md R224). -/
theorem exec_busy (hb : s.busy = true) {i : Instr} (hi : i ≠ .rdStatus) :
    ∃ w, exec i s = .next (refusedState w .busy s) := by
  cases i <;> first
    | contradiction
    | (simp only [exec, execWrConfig, execRdConfig, execWrMsglen, execRdMsglen, execCmdInit, execCmdNext, execCmdWipe,
        execRdTLo, execRdTHi, execWrM, execRdM, execRdDigest, unlessBusy_busy _ _ hb]; exact ⟨_, rfl⟩)

/-- What a host move of the operation at the head of the queue can do. -/
theorem host_cases {op : HostOp} {rest : List HostOp} (hm : s.mover = some .host) (hq : s.queue = op :: rest)
    (h : hostMove op { s.drawn with queue := rest } = .next t) :
    (∃ i, s.Runs i ∧ Effect i { s.drawn with queue := rest } t) ∨
    (∃ w e, t = refusedState w e { s.drawn with queue := rest }) ∨
    (op = .poll ∧ ∃ q, t = { s.drawn with queue := q, replies := statusWord s :: s.replies }) ∨
    (s.PresentsReset ∧ t = { s.drawn with queue := rest }.clearEngine) := by
  cases op with
  | tx width w =>
    obtain ⟨rfl, ⟨i, hd, he⟩ | ⟨r, e, hd, rfl⟩⟩ := transact_cases h
    · exact .inl ⟨i, ⟨hm, w, rest, hq, hd⟩, exec_cases he⟩
    · exact .inr (.inl ⟨_, _, rfl⟩)
  | poll =>
    have hst : statusWord { s.drawn with queue := rest } = statusWord s := by simp [statusWord]
    rw [hostMove, pollMove_eq] at h
    refine .inr (.inr (.inl ⟨rfl, ?_⟩))
    rw [← Host_next_inj h, ← hst, ← drawn_replies s]
    split <;> exact ⟨_, rfl⟩
  | reset => exact .inr (.inr (.inr ⟨⟨hm, rest, hq⟩, (Host_next_inj h).symm⟩))

/-- Everything a step of the machine can do: nothing; one engine step; a host move that changes at most ERRCODE of the
engine; an accepted write or command while BUSY = 0; a reset. -/
theorem step_effects (h : step s = .next t) :
    (s.mover = none ∧ t = s) ∨
    (s.mover = some .engine ∧ t = engineStep s.drawn) ∨
    (s.mover = some .host ∧ ∃ q r sc e,
      t = { s with queue := q, replies := r, sched := sc, errcode := if s.errcode = .none then e else s.errcode }) ∨
    (s.mover = some .host ∧ ∃ q sc, s.busy = false ∧
      ((∃ d, s.Runs (.wrConfig d) ∧ t = { s with queue := q, sched := sc, config := configStored d }) ∨
       (∃ d, s.Runs (.wrMsglen d) ∧ t = { s with queue := q, sched := sc, msglen := d }) ∨
       (∃ k d, s.Runs (.wrM k d) ∧ t = { s with queue := q, sched := sc, m := s.m.set k d }) ∨
       (s.AcceptsInit ∧ t = initState { s with queue := q, sched := sc }) ∨
       (s.AcceptsNext ∧ t = nextState { s with queue := q, sched := sc }) ∨
       (s.AcceptsWipe ∧ t = State.clearEngine { s with queue := q, sched := sc }))) ∨
    (s.PresentsReset ∧ ∃ q sc, t = State.clearEngine { s with queue := q, sched := sc }) := by
  rcases step_cases h with h1 | h1 | ⟨op, rest, hm, hq, h1⟩
  · exact .inl h1
  · exact .inr (.inl h1)
  have he : s.errcode = if s.errcode = .none then .none else s.errcode := by split <;> simp [*]
  have hd : ({ s.drawn with queue := rest } : State) = { s with queue := rest, sched := s.drawn.sched } := by
    rw [drawn_eq]
  rcases host_cases hm hq h1 with ⟨i, hr, h2⟩ | ⟨w, e, rfl⟩ | ⟨-, q, rfl⟩ | ⟨hr, rfl⟩
  · rw [hd] at h2
    rcases h2 with ⟨w, e, rfl⟩ | ⟨x, rfl⟩ | ⟨hb, h2⟩
    · rw [refusedState_eq]; exact .inr (.inr (.inl ⟨hm, _, _, _, e, rfl⟩))
    · refine .inr (.inr (.inl ⟨hm, rest, x :: s.replies, s.drawn.sched, .none, ?_⟩)); rw [← he]; rfl
    · refine .inr (.inr (.inr (.inl ⟨hm, rest, s.drawn.sched, hb, ?_⟩)))
      rcases h2 with ⟨d, rfl, rfl⟩ | ⟨d, rfl, rfl⟩ | ⟨k, d, rfl, rfl⟩ | ⟨rfl, hl, rfl⟩ | ⟨rfl, hp, rfl⟩ | ⟨rfl, rfl⟩
      · exact .inl ⟨d, hr, rfl⟩
      · exact .inr (.inl ⟨d, hr, rfl⟩)
      · exact .inr (.inr (.inl ⟨k, d, hr, rfl⟩))
      · exact .inr (.inr (.inr (.inl ⟨⟨hr, hb, hl⟩, rfl⟩)))
      · exact .inr (.inr (.inr (.inr (.inl ⟨⟨hr, hb, hp⟩, rfl⟩))))
      · exact .inr (.inr (.inr (.inr (.inr ⟨⟨hr, hb⟩, rfl⟩))))
  · rw [hd, refusedState_eq]; exact .inr (.inr (.inl ⟨hm, _, _, _, e, rfl⟩))
  · refine .inr (.inr (.inl ⟨hm, q, statusWord s :: s.replies, s.drawn.sched, .none, ?_⟩)); rw [← he, drawn_eq]
  · rw [hd]; exact .inr (.inr (.inr (.inr ⟨hr, _, _, rfl⟩)))

/-- What an engine step leaves alone: everything the host writes, the counters and the host's side. -/
theorem engineStep_frame (s : State) :
    engineStep s = { s with
      h := (engineStep s).h, v := (engineStep s).v, keypend := (engineStep s).keypend, phase := (engineStep s).phase,
      busy := (engineStep s).busy, rnd := (engineStep s).rnd, gix := (engineStep s).gix } := by
  rcases engineStep_cases s with ⟨_, _, h⟩ | ⟨_, _, h⟩ | ⟨_, h⟩ <;> rw [h] <;> rfl

/-- The last of n + 1 engine steps. -/
theorem engineRun_succ (n : Nat) (s : State) : engineRun (n + 1) s = engineStep (engineRun n s) := by
  induction n generalizing s with
  | zero => rfl
  | succ n ih => rw [engineRun, ih, engineRun]

end Sys2Proof.Machine
end

