-- ==== Sys2Proof/Tests/Slice0.lean ====
section
/-! SUPPORT. Tests with results taken from spec/ (95_test_vectors.md, the examples in the rules, the encoding tables),
and for each obligation with hypotheses a state that meets them. -/

namespace Sys2Proof.Tests

open Sys2Proof.Machine

set_option maxRecDepth 20000

/-! ## Helpers -/

/-- The next state, when the outcome is one. -/
def nextOf : Result → Option State
  | .next s => some s
  | .fault _ => none
  | .refused _ => none

/-- The STATUS word after whole-word transactions. -/
def statusAfter : List TxWord → State → Option Word
  | [], s => some (statusWord s)
  | w :: ws, s => (nextOf (transact 8 w s)).bind (statusAfter ws)

/-- The last RDATA word after an instruction. -/
def reply (i : Instr) (s : State) : Option Word := (nextOf (exec i s)).bind fun t => t.replies.head?

/-- A block buffer of garbage. -/
def garbage : Vector Word 16 := Vector.replicate 16 0xA5A5A5A5A5A5A5A5

/-- After an accepted INIT with CONFIG = 0x40 and MSGLEN = 3. -/
def active : State := initState { State.reset with config := 0x40, msglen := 3 }

/-- After the NEXT of the one-block message "abc" (L2-F1). -/
def busy : State := nextState { active with m := (Vector.replicate 16 0).set 0 0x0000000000636261 }

/-- The compression of L2-F1 before its finalize step: V after round 11. -/
def last : State :=
  { busy with
    rnd := 12
    v := #v[
      0x12EF8A641EC4F6D6, 0xBCED5DE977C9FAF5, 0x733CA476C5148639, 0x97DF596B0610F6FC,
      0xF42C16519AD5AFA7, 0xAA5AC1888E10467E, 0x217D930AA51787F3, 0x906A6FF19E573942,
      0x75AB709BD3DCBF24, 0xEE7CE1F345947AA4, 0xF8960D6C2FAF5F5E, 0xE332538A36B6D246,
      0x885BEF040EF6AA0B, 0xA4939A417BFB78A3, 0x646CBB7AF6DCE980, 0xE813A23C60AF3B82] }

/-- A finished hash of 20 bytes: H of L2-D2. -/
def done : State :=
  { State.reset with
    phase := .done, lastf := true, hl := 20, t := 3
    h := #v[
      0x3695F376F6644238, 0xDC1C9284F2230584, 0x34ABA0746B84B668, 0xC2000B1FEF44BB5F,
      0x130734B217F9F6A8, 0xA14CAF5412A5DE86, 0x8286C7DDFD0EC709, 0x7F08AE1D7ACF16B3] }

/-! ## Well-formedness -/

theorem test_wf_refuses_m16 : Reg.wf (.m 16) = false ∧ Reg.wf (.m 15) = true := by decide
theorem test_wf_refuses_digest8 : Reg.wf (.digest 8) = false ∧ Reg.wf (.digest 7) = true := by decide
theorem test_wf_refuses_write_to_m16 : Stmt.wf (.wr (.m 16) 0) = false ∧ Stmt.wf (.rd (.digest 8)) = false := by decide
theorem test_wf_refuses_65_bit_value :
    Stmt.wf (.wr .msglen (2 ^ 64)) = false ∧ Stmt.wf (.wr .msglen (2 ^ 64 - 1)) = true := by decide
theorem test_wf_refuses_129_byte_block :
    Stmt.wf (.ldblk (List.replicate 129 0)) = false ∧ Stmt.wf (.ldblk (List.replicate 128 0)) = true := by decide
theorem test_wf_refuses_empty_key : Stmt.wf (.ldkey []) = false ∧ Stmt.wf (.ldkey [0]) = true := by decide
theorem test_wf_refuses_65_byte_key :
    Stmt.wf (.ldkey (List.replicate 65 0)) = false ∧ Stmt.wf (.ldkey (List.replicate 64 0)) = true := by decide
theorem test_ill_formed_program_is_refused : assemble [.wr (.m 16) 0] = none := by decide

/-! ## Decoding: words written out from 30_encoding.md R70, `WE<<72 | ADDR<<64 | WDATA` -/

theorem test_decode_wr_config : decode 0x100FFFF000000002040 = .instr (.wrConfig 0xFFFF000000002040) := by decide
theorem test_decode_rd_config : decode 0x0000000000000000000 = .instr .rdConfig := by decide
theorem test_decode_wr_msglen : decode 0x1010000000000000081 = .instr (.wrMsglen 129) := by decide
theorem test_decode_rd_msglen : decode 0x0010000000000000000 = .instr .rdMsglen := by decide
theorem test_decode_cmd_init : decode 0x1020000000000000001 = .instr .cmdInit := by decide
theorem test_decode_cmd_next : decode 0x1020000000000000002 = .instr .cmdNext := by decide
theorem test_decode_cmd_wipe : decode 0x1020000000000000003 = .instr .cmdWipe := by decide
theorem test_decode_rd_status : decode 0x003DEADBEEFDEADBEEF = .instr .rdStatus := by decide
theorem test_decode_rd_t_lo : decode 0x0040000000000000000 = .instr .rdTLo := by decide
theorem test_decode_rd_t_hi : decode 0x0050000000000000000 = .instr .rdTHi := by decide
theorem test_decode_wr_m :
    decode 0x1100706050403020100 = .instr (.wrM 0 0x0706050403020100) ∧
    decode 0x11F8000000000000001 = .instr (.wrM 15 0x8000000000000001) := by decide
theorem test_decode_rd_m : decode 0x01A0000000000000000 = .instr (.rdM 10) := by decide
theorem test_decode_rd_digest :
    decode 0x0200000000000000000 = .instr (.rdDigest 0) ∧ decode 0x0270000000000000000 = .instr (.rdDigest 7) := by decide
theorem test_decode_rejects :
    decode 0x1020000000000000000 = .rejected .illegalCommand ∧
    decode 0x1020000000000000004 = .rejected .illegalCommand ∧
    decode 0x1028000000000000001 = .rejected .illegalCommand ∧
    decode 0x0020000000000000001 = .rejected .writeOnlyRegister ∧
    decode 0x1030000000000000000 = .rejected .readOnlyRegister ∧
    decode 0x1270000000000000000 = .rejected .readOnlyRegister ∧
    decode 0x0060000000000000000 = .rejected .reservedAddress ∧
    decode 0x00F0000000000000000 = .rejected .reservedAddress ∧
    decode 0x1280000000000000000 = .rejected .reservedAddress ∧
    decode 0x0FF0000000000000000 = .rejected .reservedAddress := by decide
theorem test_table_word :
    decodeTableWord 80 0x1020000000000000002 = some .cmdNext ∧ decodeTableWord 80 0x1020000000000000000 = none ∧
    decodeTableWord 80 0x2020000000000000002 = none := by decide

/-! ## Instructions -/

/-- 43_driver.md R175: bits 63:16 are ignored. -/
theorem test_wr_config :
    (nextOf (exec (.wrConfig 0xFFFF000000002040) State.reset)).map State.config = some 0x2040 := by decide
/-- 43_driver.md R176. -/
theorem test_rd_config : reply .rdConfig { State.reset with config := 0x2040 } = some 0x2040 := by decide
/-- 43_driver.md R177. -/
theorem test_wr_msglen : (nextOf (exec (.wrMsglen 129) State.reset)).map State.msglen = some 129 := by decide
/-- 43_driver.md R184: MSGLEN, not REMAIN. -/
theorem test_rd_msglen : reply .rdMsglen { active with remain := 0 } = some 3 := by decide
/-- 43_driver.md R172, the example. -/
theorem test_init :
    (nextOf (exec .cmdInit { State.reset with config := 0x40, msglen := 3 })).map
      (fun s => (s.h[0], s.h[7], s.remain, statusWord s)) =
    some (0x6A09E667F2BDC948, 0x5BE0CD19137E2179, 3, 0x2) := by decide
/-- L2-D1: the 64-byte key, and KEYLEN = 65, which is refused. -/
theorem test_init_keyed :
    (nextOf (exec .cmdInit { State.reset with config := 0x4040, msglen := 0xFFFFFFFFFFFFFFFF })).map
      (fun s => (s.h[0], s.remain, statusWord s)) = some (0x6A09E667F2BD8948, 0x1000000000000007F, 0x00A) ∧
    (nextOf (exec .cmdInit { State.reset with config := 0x4140 })).map (fun s => (s.h[0], statusWord s)) =
      some (0, 0x100) := by decide
/-- L2-F1 and L2-A2: "abc" written over garbage; the padding, the counter, the seeded V and STATUS. -/
theorem test_next :
    (nextOf (exec .cmdNext { active with m := garbage.set 0 0xA5A5A5A5A5636261 })).map
      (fun s => (s.m, s.t, s.remain, statusWord s)) =
    some ((Vector.replicate 16 0).set 0 0x0000000000636261, 3, 0, 0x13) ∧
    busy.v = #v[
      0x6A09E667F2BDC948, 0xBB67AE8584CAA73B, 0x3C6EF372FE94F82B, 0xA54FF53A5F1D36F1,
      0x510E527FADE682D1, 0x9B05688C2B3E6C1F, 0x1F83D9ABFB41BD6B, 0x5BE0CD19137E2179,
      0x6A09E667F3BCC908, 0xBB67AE8584CAA73B, 0x3C6EF372FE94F82B, 0xA54FF53A5F1D36F1,
      0x510E527FADE682D2, 0x9B05688C2B3E6C1F, 0xE07C265404BE4294, 0x5BE0CD19137E2179] := by decide
/-- L2-A1, row K = 3, L = 200: the key block is padded from 3, counts 128 and is not the last. -/
theorem test_next_key_block :
    (nextOf (exec .cmdNext { active with m := garbage, remain := 328, keypend := true, kl := 3 })).map
      (fun s => (s.m, s.t, s.remain, statusWord s)) =
    some ((Vector.replicate 16 0).set 0 0x0000000000A5A5A5, 128, 200, 0x0B) := by decide
/-- 43_driver.md R174, the example. -/
theorem test_wipe :
    (nextOf (exec .cmdWipe { done with m := garbage, errcode := .access })).map
      (fun s => (s.m[5], s.h[0], s.hl, statusWord s)) = some (0, 0, 0, 0) := by decide
/-- L2-E: WIPE while BUSY = 1 is refused. -/
theorem test_wipe_busy :
    (nextOf (exec .cmdWipe busy)).map (fun s => (s.h[0], statusWord s)) = some (0x6A09E667F2BDC948, 0x313) := by decide
/-- 43_driver.md R183, the example, and L2-D4. -/
theorem test_rd_status :
    reply .rdStatus busy = some 0x13 ∧ reply .rdStatus (finalize busy) = some 0x14 ∧
    reply .rdStatus { busy with keypend := true } = some 0x1B := by decide
/-- 10_state.md R37 on the counter 2^64 + 5 of 41_compression.md R132. -/
theorem test_rd_t :
    reply .rdTLo { done with t := 0x10000000000000005 } = some 5 ∧
    reply .rdTHi { done with t := 0x10000000000000005 } = some 1 := by decide
/-- 43_driver.md R178, R179. -/
theorem test_wr_m_then_rd_m :
    (nextOf (exec (.wrM 15 0x0706050403020100) State.reset)).bind (reply (.rdM 15)) = some 0x0706050403020100 ∧
    (nextOf (exec (.wrM 15 0x0706050403020100) State.reset)).map (fun s => (blockByte s.m 120, blockByte s.m 127)) =
      some (0x00, 0x07) := by decide
/-- L2-D2: the digest words of HL = 20. -/
theorem test_rd_digest :
    reply (.rdDigest 1) done = some 0xDC1C9284F2230584 ∧ reply (.rdDigest 2) done = some 0x000000006B84B668 ∧
    reply (.rdDigest 3) done = some 0 := by decide
/-- 10_state.md R38: the last byte of a 20-byte digest is byte 3 of DIGEST[2]. -/
theorem test_digest_bytes : hashByte done.h 0 = 0x38 ∧ hashByte done.h 19 = 0x6B := by decide

/-- L2-E, from reset. -/
theorem test_errors_from_reset :
    statusAfter [0x1020000000000000002] State.reset = some 0x200 ∧
    statusAfter [0x1020000000000000001] State.reset = some 0x100 ∧
    statusAfter [0x1020000000000000102] State.reset = some 0x400 ∧
    statusAfter [0x0020000000000000000] State.reset = some 0x500 ∧
    statusAfter [0x1030000000000000000] State.reset = some 0x500 ∧
    statusAfter [0x0060000000000000000] State.reset = some 0x500 ∧
    statusAfter [0x0200000000000000000] State.reset = some 0x200 ∧
    statusAfter [0x1020000000000000000, 0x0060000000000000000] State.reset = some 0x400 ∧
    statusAfter [0x1020000000000000000, 0x1000000000000000040, 0x1020000000000000001] State.reset = some 0x002 := by
  decide
/-- L2-E, while BUSY = 1 and in DONE. -/
theorem test_errors_while_busy :
    statusAfter [0x1100000000000000000] busy = some 0x313 ∧
    statusAfter [0x10200000000000000FF] busy = some 0x313 ∧
    statusAfter [0x0300000000000000000] busy = some 0x313 ∧
    statusAfter [0x0030000000000000000] busy = some 0x13 ∧
    statusAfter [0x1020000000000000002] (finalize busy) = some 0x214 := by decide

/-! ## The engine -/

/-- L2-M1 and L2-M3. -/
theorem test_arx :
    add64 0x0123456789ABCDEF 0xFEDCBA9876543210 = 0xFFFFFFFFFFFFFFFF ∧
    add3 0xFFFFFFFFFFFFFFFF 0xFFFFFFFFFFFFFFFF 0xFFFFFFFFFFFFFFFF = 0xFFFFFFFFFFFFFFFD ∧
    rotr32 0x0123456789ABCDEF = 0x89ABCDEF01234567 ∧ rotr24 0x0123456789ABCDEF = 0xABCDEF0123456789 ∧
    rotr16 0x0123456789ABCDEF = 0xCDEF0123456789AB ∧ rotr63 0x0123456789ABCDEF = 0x02468ACF13579BDE := by decide
/-- L2-M4. -/
theorem test_mix :
    mixG ⟨1, 0, 0, 0⟩ 0 0 = ⟨0x0000000000000101, 0x0202000200020200, 0x0101000100010000, 0x0101000000010000⟩ ∧
    mixG ⟨0, 0, 0, 0⟩ 0 1 = ⟨0x0000000000000001, 0x0002000000000000, 0x0001000000000000, 0x0001000000000000⟩ ∧
    mixG ⟨0x6A09E667F3BCC908, 0x510E527FADE682D1, 0x6A09E667F3BCC908, 0x510E527FADE682D1⟩ 0 0 =
      ⟨0xF0C9AA0EE3A05B49, 0x3B21B5B40248644D, 0xA821ABFD40D93D56, 0x31D1FC8C630609B6⟩ := by decide
/-- 41_compression.md R121 and R127: a row and a quadruple written out again from the spec's tables. -/
theorem test_tables :
    (sigmaRow 11).toList = [14, 10, 4, 8, 9, 15, 13, 6, 1, 12, 0, 2, 11, 7, 5, 3] ∧
    (sigmaRow 9).toList = [10, 2, 8, 4, 7, 6, 1, 5, 15, 11, 9, 14, 3, 12, 13, 0] ∧
    quads.get 6 = ⟨2, 7, 8, 13⟩ := by decide
/-- L2-F1, engine step 1. -/
theorem test_engine_first_step :
    ((engineStep busy).v[0], (engineStep busy).v[4], (engineStep busy).v[8], (engineStep busy).v[12]) =
      (0xF0C9AA0F86491DEA, 0xB7DEFC3D0277E11F, 0xEE5E0F39647A9FFF, 0x7772FC2886A76C5F) ∧
    ((engineStep busy).rnd, (engineStep busy).gix) = (0, 1) := by decide
/-- L2-F1, V after round 0. -/
theorem test_round :
    roundF busy.m 0 busy.v = #v[
      0x86B7C1568029BB79, 0xC12CBCC809FF59F3, 0xC6A5214CC0EACA8E, 0x0C87CD524C14CC5D,
      0x44EE6039BD86A9F7, 0xA447C850AA694A7E, 0xDE080F1BB1C0F84B, 0x595CB8A9A1ACA66C,
      0xBEC3AE837EAC4887, 0x6267FC79DF9D6AD1, 0xFA87B01273FA6DBE, 0x521A715C63E08D8A,
      0xE02D0975B8D37A83, 0x1C7B754F08B7D193, 0x8F885A76B6E578FE, 0x2318A24E2140FC64] := by decide
/-- L2-F1, engine step 97. -/
theorem test_finalize :
    (engineStep last).h = #v[
      0x0D4D1C983FA580BA, 0xE9F6129FB697276A, 0xB7C45A68142F214C, 0xD1A2FFDB6FBB124B,
      0x2D79AB2A39C5877D, 0x95CC3345DED552C2, 0x5A92F1DBA88AD318, 0x239900D4ED8623B9] ∧
    statusWord (engineStep last) = 0x14 ∧ (engineStep last).rnd = 0 := by decide
/-- L2-F1, F as one function. -/
theorem test_compress_abc :
    compressF busy.h busy.m 3 true = (engineStep last).h := by decide
/-- L2-F2, the row t = 2^64 + 5. -/
theorem test_compress_high_counter :
    (compressF (Vector.replicate 8 0) (Vector.replicate 16 0) 0x10000000000000005 false)[0] = 0x313C7F3312C2F655 := by
  decide

/-! ## The host's side -/

/-- L3-P1: the transaction words of the assembled statements. -/
theorem test_assemble :
    assemble [.wr .config 0x40, .wr .msglen 0, .cmd .init, .ldblk [], .cmd .next, .poll, .rd (.digest 7)] =
      some [.tx 8 0x1000000000000000040, .tx 8 0x1010000000000000000, .tx 8 0x1020000000000000001,
        .tx 8 0x1020000000000000002, .poll, .tx 8 0x0270000000000000000] := by decide
/-- 30_encoding.md R88: nine bytes are two words, the second filled with zero bytes. -/
theorem test_load_block :
    loadBlockOps [0x61, 0x62, 0x63, 0x64, 0x65, 0x66, 0x67, 0x68, 0x69] =
      [.tx 8 0x1106867666564636261, .tx 8 0x1110000000000000069] := by decide
/-- 20_memory.md R54. -/
theorem test_narrow_refused :
    step { State.reset with queue := [.tx 4 0x1000000000000000040] } = .refused .notWholeWord := by rfl
/-- 70_reset_and_hazards.md R251: a reset abandons the compression. -/
theorem test_reset_while_busy :
    (nextOf (step { busy with queue := [.reset], sched := [.host] })).map (fun s => (s.h, s.v, statusWord s, s.mover)) =
      some (Vector.replicate 8 0, Vector.replicate 16 0, 0, none) := by decide
/-- 30_encoding.md R88: POLL stays while BUSY = 1 is read. -/
theorem test_poll :
    (nextOf (step { busy with queue := [.poll], sched := [.host] })).map (fun s => (s.replies, s.queue)) =
      some ([0x13], [.poll]) ∧
    (nextOf (step { done with queue := [.poll] })).map (fun s => (s.replies, s.queue)) = some ([0x14], []) := by decide
/-- An instruction placed by `withFetchWord` is the next thing a step runs. -/
theorem test_fetch_word :
    (nextOf (step (State.reset.withFetchWord 80 0x1000000000000000040))).map State.config = some 0x40 ∧
    (nextOf (step (busy.withFetchWord 80 0x0030000000000000000))).map State.replies = some [0x13] := by decide

/-! ## For each obligation with hypotheses, a state and operands that meet them, each clause at a boundary -/

/-- The state with these host operations presented, the host drawn first and the engine next. -/
def State.presenting (ops : List HostOp) (s : State) : State := { s with queue := ops, sched := [.host, .engine] }

/-- The write of a CMD word. -/
def command (c : Command) : HostOp := .tx 8 (txWord true 0x02 c.opcode)

theorem test_witness_DecodeThenEncodeIsTheWord :
    decode 0x003FFFFFFFFFFFFFFFF = .instr .rdStatus ∧ decode 0x11F0000000000000000 = .instr (.wrM 15 0) := by decide

theorem test_witness_DecoderAcceptsExactlyTheTable :
    (∃ r ∈ opcodeTable, r.holds 0x0270000000000000000 = true) ∧ decode 0x0270000000000000000 = .instr (.rdDigest 7) := by
  decide

theorem test_witness_ReadsReplyAndIgnoreWdata :
    dueError (txWord false 0x02 0) State.reset ≠ .none ∧ dueError (txWord false 0x01 0) busy ≠ .none := by decide

theorem test_witness_DisallowedAccessesRaiseAccess :
    State.reset.busy = false ∧
    ∀ a ∈ ([(true, 0x03), (true, 0x05), (true, 0x20), (true, 0x27), (false, 0x02), (false, 0x06), (true, 0x0F),
        (false, 0x28), (true, 0xFF)] : List (Bool × Addr)),
      (a.1 = true ∧ (a.2 = 0x03 ∨ a.2 = 0x04 ∨ a.2 = 0x05 ∨ (0x20 ≤ a.2.toNat ∧ a.2.toNat ≤ 0x27))) ∨
      (a.1 = false ∧ a.2 = 0x02) ∨
      (0x06 ≤ a.2.toNat ∧ a.2.toNat ≤ 0x0F) ∨ (0x28 ≤ a.2.toNat ∧ a.2.toNat ≤ 0xFF) := by decide

theorem test_witness_IllegalCommandWordsRaiseIllegalCmd :
    let illegal := fun d : Word => (d.extractLsb' 0 8).toNat ∉ [1, 2, 3] ∨ d.extractLsb' 8 56 ≠ 0
    illegal 0 ∧ illegal 4 ∧ illegal 0xFF ∧ illegal 0x101 ∧ State.reset.busy = false ∧ busy.busy = true := by
  refine ⟨.inl ?_, .inl ?_, .inl ?_, .inr ?_, ?_, ?_⟩ <;> decide

theorem test_witness_BusyRefusesAllButStatus :
    busy.busy = true ∧
    ¬ (txIsWrite (txWord true 0x03 0) = false ∧ txAddr (txWord true 0x03 0) = 0x03) ∧
    txIsWrite (txWord false 0x03 0) = false ∧ txAddr (txWord false 0x03 0) = 0x03 := by decide

theorem test_witness_ChecksFollowTheFixedOrder :
    dueError (txWord true 0x02 0) busy = .busy ∧ dueError (txWord false 0x03 0) busy = .none ∧
    dueError (txWord true 0x20 0) done = .access ∧ dueError (txWord true 0x02 4) done = .illegalCmd ∧
    dueError (txWord true 0x02 2) done = .seq ∧ dueError (txWord false 0x27 0) active = .seq ∧
    dueError (txWord true 0x02 1) State.reset = .config ∧ dueError (txWord true 0x02 1) active = .none := by decide

theorem test_witness_FirstErrorWinsAndMasksNothing :
    dueError (txWord true 0x02 1) active = .none ∧ ∃ t, transact 8 (txWord true 0x02 1) active = .next t :=
  ⟨by decide, _, rfl⟩

theorem test_witness_ErrcodeClearedOnlyByInitWipeReset :
    (∃ s t : State, step s = .next t ∧ s.errcode ≠ .none ∧ t.errcode ≠ s.errcode ∧ s.AcceptsInit) ∧
    (∃ s t : State, step s = .next t ∧ s.errcode ≠ .none ∧ t.errcode ≠ s.errcode ∧ s.AcceptsWipe) ∧
    (∃ s t : State, step s = .next t ∧ s.errcode ≠ .none ∧ t.errcode ≠ s.errcode ∧ s.PresentsReset) := by
  refine ⟨⟨State.presenting [command .init] { active with errcode := .seq }, _, rfl, by decide, by decide, ?_⟩,
    ⟨State.presenting [command .wipe] { done with errcode := .access }, _, rfl, by decide, by decide, ?_⟩,
    ⟨State.presenting [.reset] { busy with errcode := .busy }, _, rfl, by decide, by decide, by decide, _, rfl⟩⟩
  · exact ⟨⟨by decide, _, _, rfl, by decide⟩, by decide, by decide⟩
  · exact ⟨⟨by decide, _, _, rfl, by decide⟩, by decide⟩

theorem test_witness_OutOfPhaseRaisesSeq :
    (State.reset.busy = false ∧ State.reset.phase = .idle) ∧ (active.busy = false ∧ active.phase = .active) ∧
    (done.busy = false ∧ done.phase = .done) := by decide

theorem test_witness_InitStartsAHashOrRaisesConfig :
    let legal := fun c : BitVec 16 =>
      (c.extractLsb' 8 8).toNat ≤ 64 ∧ 1 ≤ (c.extractLsb' 0 8).toNat ∧ (c.extractLsb' 0 8).toNat ≤ 64
    legal 0x4040 ∧ legal 0x0001 ∧ ¬ legal 0x0000 ∧ ¬ legal 0x0041 ∧ ¬ legal 0x4140 ∧
    active.busy = false ∧ done.busy = false ∧ busy.busy = true := by decide

theorem test_witness_NextTakesABlock :
    active.busy = false ∧ active.phase = .active ∧
    ({ active with remain := 129 }).remain.toNat = 129 ∧ ({ active with remain := 128 }).remain.toNat = 128 := by decide

theorem test_witness_WipeErasesAllState : done.busy = false ∧ busy.busy = true := by decide

theorem test_witness_WritesStoreTheirRegister :
    done.busy = false ∧ busy.busy = true ∧ (Instr.wrM 15 7 = .wrConfig 7 ∨ Instr.wrM 15 7 = .wrMsglen 7 ∨
      ∃ k, Instr.wrM 15 7 = .wrM k 7) := ⟨by decide, by decide, .inr (.inr ⟨15, rfl⟩)⟩

theorem test_witness_ReadsReturnTheirRegister :
    done.busy = false ∧ busy.busy = true ∧ ∃ k, Instr.rdM 15 = .rdM k := ⟨by decide, by decide, 15, rfl⟩

theorem test_witness_DigestReadMasksTheHash :
    (done.busy = false ∧ done.phase = .done ∧ 8 * 2 + 3 < done.hl.toNat ∧ ¬ 8 * 2 + 4 < done.hl.toNat) ∧
    (active.busy = false ∧ active.phase ≠ .done) ∧ busy.busy = true := by decide

theorem test_witness_ReadsAreIdempotent :
    txIsWrite (txWord false 0x27 0) = false ∧
    (∃ t u : State, transact 8 (txWord false 0x27 0) done = .next t ∧ transact 8 (txWord false 0x27 0) t = .next u) ∧
    dueError (txWord false 0x27 0) done = .none := ⟨by decide, ⟨_, _, rfl, rfl⟩, by decide⟩

theorem test_witness_OnlyCommandsTouchTheHash :
    ¬ (txIsWrite (txWord true 0x1F 5) = true ∧ txAddr (txWord true 0x1F 5) = 0x02) ∧
    (∃ t, transact 8 (txWord true 0x1F 5) active = .next t) ∧
    (txAddr (txWord true 0x1F 5)).toNat ≠ 0x10 + (119 : Fin 128).val / 8 := ⟨by decide, ⟨_, rfl⟩, by decide⟩

theorem test_witness_ElementsAreWrittenOnlyByTheirRules :
    (∃ s t : State, s.Sequenced ∧ step s = .next t ∧ t.h ≠ s.h ∧ s.Finalizes) ∧
    (∃ s t : State, s.Sequenced ∧ step s = .next t ∧ t.busy ≠ s.busy ∧ s.AcceptsNext) ∧
    (∃ s t : State, s.Sequenced ∧ step s = .next t ∧ t.m ≠ s.m ∧ ∃ i d, s.Runs (.wrM i d)) ∧
    (∃ s t : State, s.Sequenced ∧ step s = .next t ∧ t.rnd ≠ s.rnd ∧ s.mover = some .engine) := by
  refine ⟨⟨last, _, by decide, rfl, by decide, by decide, by decide⟩,
    ⟨State.presenting [command .next] active, _, by decide, rfl, by decide, ⟨?_, ?_⟩, by decide, by decide⟩,
    ⟨State.presenting [.tx 8 (txWord true 0x1F 5)] active, _, by decide, rfl, by decide, 15, 5, by decide, _, _, rfl,
      by decide⟩,
    ⟨{ busy with gix := 7 }, _, by decide, rfl, by decide, by decide⟩⟩
  · decide
  · exact ⟨_, _, rfl, by decide⟩

/-- V and T by a NEXT, V by an engine step; CONFIG and MSGLEN by their writes. -/
theorem test_witness_ElementsAreWrittenOnlyByTheirRules_data :
    (∃ s t : State, s.Sequenced ∧ step s = .next t ∧ t.v ≠ s.v ∧ t.t ≠ s.t ∧ t.remain ≠ s.remain ∧ t.lastf ≠ s.lastf ∧
      s.queue = [command .next]) ∧
    (∃ s t : State, s.Sequenced ∧ step s = .next t ∧ t.v ≠ s.v ∧ s.mover = some .engine) ∧
    (∃ s t : State, s.Sequenced ∧ step s = .next t ∧ t.config ≠ s.config ∧ s.Runs (.wrConfig 0x4040)) ∧
    (∃ s t : State, s.Sequenced ∧ step s = .next t ∧ t.msglen ≠ s.msglen ∧ s.Runs (.wrMsglen 129)) :=
  ⟨⟨State.presenting [command .next] active, _, by decide, rfl, by decide, by decide, by decide, by decide, rfl⟩,
    ⟨busy, _, by decide, rfl, by decide, by decide⟩,
    ⟨State.presenting [.tx 8 (txWord true 0x00 0x4040)] active, _, by decide, rfl, by decide, by decide, _, _, rfl,
      by decide⟩,
    ⟨State.presenting [.tx 8 (txWord true 0x01 129)] active, _, by decide, rfl, by decide, by decide, _, _, rfl,
      by decide⟩⟩

/-- KL, HL, KEYPEND and PHASE by a keyed INIT, KEYPEND by a finalize step; ERRCODE by a raise and by a WIPE. -/
theorem test_witness_ElementsAreWrittenOnlyByTheirRules_control :
    (∃ s t : State, s.Sequenced ∧ step s = .next t ∧ t.kl ≠ s.kl ∧ t.hl ≠ s.hl ∧ t.keypend ≠ s.keypend ∧
      t.phase ≠ s.phase ∧ s.queue = [command .init]) ∧
    (∃ s t : State, s.Sequenced ∧ step s = .next t ∧ t.keypend ≠ s.keypend ∧ s.Finalizes) ∧
    (∃ s t : State, s.Sequenced ∧ step s = .next t ∧ t.errcode ≠ s.errcode ∧ s.errcode = .none ∧ t.errcode = .seq) ∧
    (∃ s t : State, s.Sequenced ∧ step s = .next t ∧ t.errcode ≠ s.errcode ∧ t.errcode = .none) :=
  ⟨⟨State.presenting [command .init] { State.reset with config := 0x4040 }, _, by decide, rfl, by decide, by decide,
      by decide, by decide, rfl⟩,
    ⟨{ last with keypend := true }, _, by decide, rfl, by decide, by decide, by decide⟩,
    ⟨State.presenting [command .next] done, _, by decide, rfl, by decide, by decide, by decide⟩,
    ⟨State.presenting [command .wipe] { done with errcode := .access }, _, by decide, rfl, by decide, by decide⟩⟩

theorem test_witness_PhaseMovesAsTheStateMachineSays :
    (∃ s t : State, s.Sequenced ∧ step s = .next t ∧ t.phase = .active ∧ s.phase = .done) ∧
    (∃ s t : State, s.Sequenced ∧ step s = .next t ∧ t.phase = .done ∧ s.phase = .active) ∧
    (∃ s t : State, s.Sequenced ∧ step s = .next t ∧ t.phase = .idle ∧ s.phase = .active) :=
  ⟨⟨State.presenting [command .init] { done with config := 0x40 }, _, by decide, rfl, by decide, by decide⟩,
    ⟨last, _, by decide, rfl, by decide, by decide⟩,
    ⟨State.presenting [.reset] busy, _, by decide, rfl, by decide, by decide⟩⟩

/-- The invariant holds in every phase and while BUSY = 1, and a step is taken from each state. -/
theorem test_witness_InvariantIsKept :
    (∃ t, State.Inv (State.presenting [command .next] active) ∧
      step (State.presenting [command .next] active) = .next t) ∧
    (∃ t, busy.Inv ∧ step busy = .next t) ∧ (∃ t, last.Inv ∧ step last = .next t) ∧
    (∃ t, done.Inv ∧ step done = .next t) ∧
    State.Inv { busy with config := 0x0340, kl := 3, keypend := true, t := 128, remain := 200, lastf := false } := by
  refine ⟨⟨_, ?_, rfl⟩, ⟨_, ?_, rfl⟩, ⟨_, ?_, rfl⟩, ⟨_, ?_, rfl⟩, ?_⟩ <;>
    exact ⟨by decide, by decide, by decide, by decide, by decide⟩

theorem test_witness_StepRunsTheDecodedInstruction :
    (∃ s w rest i, State.queue s = .tx 8 w :: rest ∧ s.busy = false ∧ decode w = .instr i) ∧
    (∃ s w rest r, State.queue s = .tx 8 w :: rest ∧ s.busy = false ∧ decode w = .rejected r) ∧
    (∃ s w rest draws i, State.queue s = .tx 8 w :: rest ∧ s.busy = true ∧ s.sched = .host :: draws ∧
      decode w = .instr i) ∧
    (∃ s w rest draws, State.queue s = .tx 8 w :: rest ∧ s.busy = true ∧ s.sched = .engine :: draws) :=
  ⟨⟨State.presenting [command .init] active, _, _, .cmdInit, rfl, by decide, by decide⟩,
    ⟨State.presenting [.tx 8 (txWord true 0x03 0)] active, _, _, .readOnlyRegister, rfl, by decide, by decide⟩,
    ⟨State.presenting [command .wipe] busy, _, _, _, .cmdWipe, rfl, by decide, rfl, by decide⟩,
    ⟨{ busy with queue := [command .wipe], sched := [.engine] }, _, _, _, rfl, by decide, rfl⟩⟩

theorem test_witness_OnlyNarrowTransactionsStop :
    (∃ s : State, s.mover = some .host ∧ ∃ width w rest, s.queue = .tx width w :: rest ∧ width ≠ 8) ∧
    State.reset.mover ≠ some .host :=
  ⟨⟨{ active with queue := [.tx 7 0] }, by decide, 7, _, _, rfl, by decide⟩, by decide⟩

theorem test_witness_IdleEngineKeepsItsState : done.busy = false ∧ done.queue = [] := by decide

theorem test_witness_ResetPutsEveryElementAtItsResetValue :
    State.PresentsReset (State.presenting [.reset] busy) ∧ State.PresentsReset (State.presenting [.reset] done) :=
  ⟨⟨by decide, _, rfl⟩, ⟨by decide, _, rfl⟩⟩

theorem test_witness_PollRepeatsWhileBusy :
    (∃ s rest, State.queue s = .poll :: rest ∧ s.busy = false) ∧
    (∃ s rest draws, State.queue s = .poll :: rest ∧ s.busy = true ∧ s.sched = .host :: draws) :=
  ⟨⟨State.presenting [.poll] done, _, rfl, by decide⟩, ⟨State.presenting [.poll] busy, _, _, rfl, by decide, rfl⟩⟩

theorem test_witness_GIsABijection :
    ∃ w w' : Mixed, mixG w 1 2 = mixG w' 1 2 := ⟨⟨1, 2, 3, 4⟩, ⟨1, 2, 3, 4⟩, rfl⟩

theorem test_witness_MixesOfOneGroupCommute :
    ((0 : Fin 8) ≠ 3 ∧ ((0 : Fin 8).val < 4 ↔ (3 : Fin 8).val < 4)) ∧
    ((4 : Fin 8) ≠ 7 ∧ ((4 : Fin 8).val < 4 ↔ (7 : Fin 8).val < 4)) := by decide

theorem test_witness_EngineStepMixesOrFinalizes :
    busy.rnd.val < 12 ∧ ({ busy with rnd := 11, gix := 7 }).rnd.val < 12 ∧ last.rnd = 12 := by decide

/-- Also the witness of every other statement about an accepted NEXT. -/
theorem test_witness_NinetySevenEngineStepsComputeF :
    ∃ t : State, active.busy = false ∧ active.phase = .active ∧ exec .cmdNext active = .next t := ⟨_, by decide, by decide, rfl⟩

theorem test_witness_EngineTracksFUnderEverySchedule :
    ∃ t : State, busy.Sequenced ∧ busy.TracksF ∧ busy.busy = true ∧ step busy = .next t :=
  ⟨_, by decide, by decide, by decide, rfl⟩

theorem test_witness_CompressionResultIsFUnderEverySchedule :
    ∃ t : State, last.Sequenced ∧ last.TracksF ∧ step last = .next t ∧ last.busy = true ∧ t.busy = false ∧
      last.mover = some .engine := ⟨_, by decide, by decide, rfl, by decide, by decide, by decide⟩

theorem test_witness_HostCannotDisturbACompression :
    ∃ s t : State, s.busy = true ∧ s.mover = some .host ∧ s.queue = [command .wipe] ∧ step s = .next t :=
  ⟨State.presenting [command .wipe] busy, _, by decide, by decide, rfl, rfl⟩

theorem test_witness_EachNextTakesNinetySevenEngineSteps :
    (∃ t : State, busy.Sequenced ∧ busy.busy = true ∧ step busy = .next t ∧ busy.mover = some .engine) ∧
    (∃ s t : State, s.Sequenced ∧ s.busy = true ∧ step s = .next t ∧ s.mover = some .host ∧ s.queue = [.poll]) :=
  ⟨⟨_, by decide, by decide, rfl, by decide⟩,
    ⟨State.presenting [.poll] busy, _, by decide, by decide, rfl, by decide, rfl⟩⟩

theorem test_witness_FairScheduleEndsEveryCompression :
    ∃ s : State, s.Sequenced ∧ s.busy = true ∧ fairSchedule s.sched ∧ wholeWords s.queue ∧ s.queue ≠ [] :=
  ⟨State.presenting [.poll] busy, by decide, by decide, .inr (by decide),
    by simp [wholeWords, State.presenting], by decide⟩

theorem test_witness_NextConservesTheCombinedLength :
    ∃ t : State, active.Inv ∧ active.busy = false ∧ active.phase = .active ∧ exec .cmdNext active = .next t :=
  ⟨_, ⟨by decide, by decide, by decide, by decide, by decide⟩, by decide, by decide, rfl⟩

theorem test_witness_StreamTakesItsNumberOfBlocks :
    (∃ s t : State, s.AcceptsInit ∧ step s = .next t) ∧ blocksLeft 0 = 1 ∧ blocksLeft 128 = 1 ∧ blocksLeft 129 = 2 :=
  ⟨⟨State.presenting [command .init] active, _, ⟨⟨by decide, _, _, rfl, by decide⟩, by decide, by decide⟩, rfl⟩,
    by decide, by decide, by decide⟩

theorem test_witness_EmptyUnkeyedMessageIsOneZeroBlock :
    ∃ s : State, s.busy = false ∧ keyLen s.config = 0 ∧ 1 ≤ (hashLen s.config).toNat ∧ (hashLen s.config).toNat ≤ 64 ∧
      s.msglen = 0 ∧ s.m = garbage := ⟨{ State.reset with config := 0x40, m := garbage }, by decide⟩

theorem test_witness_FullFinalBlocks :
    ∃ s : State, s.busy = false ∧ s.phase = .active ∧ s.remain = 128 ∧ s.keypend = true ∧
      ({ s with keypend := false }).keypend = false :=
  ⟨{ active with remain := 128, keypend := true, kl := 64 }, by decide⟩

theorem test_witness_LoadBlockPutsTheBytesInPlace :
    (List.replicate 128 (0xA5 : Byte)).length ≤ 128 ∧ ([] : List Byte).length ≤ 128 ∧ active.busy = false := by decide

theorem test_witness_ParameterWordTermsAreDisjoint :
    legalConfig 0 1 = true ∧ legalConfig 64 64 = true ∧ legalConfig 65 64 = false ∧ legalConfig 0 0 = false := by decide

/-- Two states in ACTIVE that differ in H and V. -/
theorem test_witness_HashIsHiddenUntilDone :
    ∃ s s' t t' : State, sameButHidden s s' ∧ s.h ≠ s'.h ∧ s.phase ≠ .done ∧
      transact 8 (txWord false 0x20 0) s = .next t ∧ transact 8 (txWord false 0x20 0) s' = .next t' :=
  ⟨active, { active with h := Vector.replicate 8 5 }, _, _, rfl, by decide, by decide, rfl, rfl⟩

/-- Two finished hashes of 20 bytes that differ in H from byte 20 on, and in V. -/
theorem test_witness_DigestRevealsOnlyBytesBelowHl :
    ∃ s s' t t' : State, sameButHidden s s' ∧ s.h ≠ s'.h ∧
      (∀ j : Fin 64, j.val < s.hl.toNat → hashByte s'.h j = hashByte s.h j) ∧
      transact 8 (txWord false 0x22 0) s = .next t ∧ transact 8 (txWord false 0x22 0) s' = .next t' :=
  ⟨done, { done with h := done.h.set 2 0x000000006B84B668, v := garbage }, _, _, rfl, by decide, by decide, rfl, rfl⟩

theorem test_witness_RestartKeepsNoTraceOfTheOldHash :
    ∃ s s' : State, s.busy = false ∧ legalConfig (keyLen s.config) (hashLen s.config) = true ∧ s.h ≠ s'.h ∧
      s.phase ≠ s'.phase ∧
      s' = { s with h := s'.h, t := s'.t, remain := s'.remain, kl := s'.kl, hl := s'.hl, keypend := s'.keypend,
                    lastf := s'.lastf, phase := s'.phase, errcode := s'.errcode } :=
  ⟨active, { active with h := done.h, phase := .done, lastf := true, t := 3 }, by decide, by decide, by decide,
    by decide, rfl⟩

theorem test_witness_LaterConfigurationIsInert :
    ∃ a b t : State, active.busy = false ∧ exec (.wrConfig 0x4141) active = .next a ∧
      exec (.wrMsglen 0) a = .next b ∧ exec .cmdNext active = .next t := ⟨_, _, _, by decide, rfl, rfl, rfl⟩

theorem test_witness_RegisterBytesHaveTheirOwnAddresses :
    ∃ (a a' : Addr) (k k' : Fin 8), regByteAddr a k = regByteAddr a' k' := ⟨0xFF, 0xFF, 7, 7, rfl⟩

theorem test_witness_RotationsSwapTheirParts : 63 ∈ [32, 24, 16, 63] ∧ 63 < 64 := by decide

theorem test_witness_HostProtocolComputesTheDigest :
    (List.replicate 64 (0 : Byte)).length ≤ 64 ∧ ([] : List Byte).length < 2 ^ 64 ∧ 1 ≤ 64 ∧ State.reset.busy = false := by
  decide

end Sys2Proof.Tests
end

section
/-! PROOFS. The decoder by the fields of the word, and the due error of each outcome of decoding. -/

namespace Sys2Proof.Machine

/-- The addresses of M (30_encoding.md R72). -/
theorem extractLsb'_four_eq_one_iff (a : Addr) : a.extractLsb' 4 4 = 1#4 ↔ 0x10 ≤ a.toNat ∧ a.toNat ≤ 0x1F := by
  rw [BitVec.toNat_eq, BitVec.extractLsb'_toNat, Nat.shiftRight_eq_div_pow]
  simp only [BitVec.toNat_ofNat]
  have := a.isLt
  omega

/-- The addresses of DIGEST (30_encoding.md R72). -/
theorem extractLsb'_three_eq_four_iff (a : Addr) : a.extractLsb' 3 5 = 4#5 ↔ 0x20 ≤ a.toNat ∧ a.toNat ≤ 0x27 := by
  rw [BitVec.toNat_eq, BitVec.extractLsb'_toNat, Nat.shiftRight_eq_div_pow]
  simp only [BitVec.toNat_ofNat]
  have := a.isLt
  omega

/-- The fields of a word that a rejection by this name answers (30_encoding.md R73, R82, R83). -/
def Rejects (r : Reject) (w : TxWord) : Prop :=
  match r with
  | .reservedAddress => (0x06 ≤ (txAddr w).toNat ∧ (txAddr w).toNat ≤ 0x0F) ∨ 0x28 ≤ (txAddr w).toNat
  | .readOnlyRegister => txIsWrite w = true ∧
      ((0x03 ≤ (txAddr w).toNat ∧ (txAddr w).toNat ≤ 0x05) ∨ (0x20 ≤ (txAddr w).toNat ∧ (txAddr w).toNat ≤ 0x27))
  | .writeOnlyRegister => txIsWrite w = false ∧ (txAddr w).toNat = 0x02
  | .illegalCommand => txIsWrite w = true ∧ (txAddr w).toNat = 0x02 ∧
      (txData w).toNat ≠ 1 ∧ (txData w).toNat ≠ 2 ∧ (txData w).toNat ≠ 3

/-- The word has the fields of the instruction's own word; a read's WDATA is free (30_encoding.md R71). -/
def FieldsOf (i : Instr) (w : TxWord) : Prop :=
  txIsWrite w = txIsWrite (encode i) ∧ txAddr w = txAddr (encode i) ∧
    (txIsWrite w = true → txData w = txData (encode i))

/-- What the fields of a word must be for the decoder to answer this. -/
def ReadsFields (o : Decoded) (w : TxWord) : Prop :=
  match o with
  | .instr i => FieldsOf i w
  | .rejected r => Rejects r w

/-- A write of CMD: the three opcodes with RSVD = 0 are the words 1, 2 and 3 (30_encoding.md R80, R81). -/
theorem decodeCommand_readsFields (d : Word) : ReadsFields (decodeCommand d) (txWord true 0x02 d) := by
  have hop : (d.extractLsb' 0 8).toNat = d.toNat % 256 := by simp [BitVec.extractLsb'_toNat]
  have hrsvd : d.extractLsb' 8 56 = 0 ↔ d.toNat / 256 = 0 := by
    rw [BitVec.toNat_eq, BitVec.extractLsb'_toNat, Nat.shiftRight_eq_div_pow]
    have := d.isLt
    simp only [BitVec.ofNat_eq_ofNat, BitVec.toNat_ofNat]
    omega
  by_cases hd : d.toNat = 1 ∨ d.toNat = 2 ∨ d.toNat = 3
  · have heq : d = 1 ∨ d = 2 ∨ d = 3 := by simpa [BitVec.toNat_eq] using hd
    rcases heq with rfl | rfl | rfl <;> exact ⟨by decide, by decide, by decide⟩
  · have hill : decodeCommand d = .rejected .illegalCommand := by
      unfold decodeCommand
      split
      · rfl
      next hz =>
        have := hrsvd.mp (Decidable.not_not.mp hz)
        split
        case h_4 => rfl
        all_goals omega
    rw [hill]
    simp only [ReadsFields, Rejects, txIsWrite_txWord, txAddr_txWord, txData_txWord]
    exact ⟨trivial, rfl, by omega⟩

/-- The addresses outside M and DIGEST. -/
theorem decodeControl_readsFields (we : Bool) (a : Addr) (d : Word)
    (hm : ¬ (0x10 ≤ a.toNat ∧ a.toNat ≤ 0x1F)) (hd : ¬ (0x20 ≤ a.toNat ∧ a.toNat ≤ 0x27)) :
    ReadsFields (decodeControl we a d) (txWord we a d) := by
  have haddr : ∀ k : Nat, a.toNat = k → a = BitVec.ofNat 8 k := fun k h => by
    rw [← h, BitVec.ofNat_toNat, BitVec.setWidth_eq]
  unfold decodeControl
  split
  case h_3 h =>
    obtain rfl := haddr _ h
    cases we
    · exact ⟨txIsWrite_txWord .., by rw [txAddr_txWord]; rfl⟩
    · exact decodeCommand_readsFields d
  case h_7 h0 h1 h2 h3 h4 h5 =>
    simp only [ReadsFields, Rejects, txAddr_txWord]
    have h : a.toNat ≠ 0 ∧ a.toNat ≠ 1 ∧ a.toNat ≠ 2 ∧ a.toNat ≠ 3 ∧ a.toNat ≠ 4 ∧ a.toNat ≠ 5 :=
      ⟨h0, h1, h2, h3, h4, h5⟩
    omega
  all_goals
    next h =>
    obtain rfl := haddr _ h
    cases we <;> simp [ReadsFields, FieldsOf, Rejects, encode]

/-- Everything the decoder can answer, from the fields of the word. -/
theorem decode_readsFields (w : TxWord) : ReadsFields (decode w) w := by
  obtain ⟨we, a, d, rfl⟩ := txWord_cases w
  have ha := a.isLt
  simp only [decode, txIsWrite_txWord, txAddr_txWord, txData_txWord, extractLsb'_four_eq_one_iff,
    extractLsb'_three_eq_four_iff]
  split
  next hm =>
    have hi : BitVec.ofNat 8 (0x10 + a.toNat % 16) = a := by
      apply BitVec.eq_of_toNat_eq
      rw [BitVec.toNat_ofNat]
      omega
    cases we <;> simp [ReadsFields, FieldsOf, encode, hi]
  next hm =>
    split
    next hd =>
      have hi : BitVec.ofNat 8 (0x20 + a.toNat % 8) = a := by
        apply BitVec.eq_of_toNat_eq
        rw [BitVec.toNat_ofNat]
        omega
      cases we <;> simp [ReadsFields, FieldsOf, Rejects, encode, hi, hd]
    next hd => exact decodeControl_readsFields we a d hm hd

theorem decode_instr_fields {w : TxWord} {i : Instr} (h : decode w = .instr i) : FieldsOf i w := by
  simpa [h, ReadsFields] using decode_readsFields w

theorem decode_rejected_fields {w : TxWord} {r : Reject} (h : decode w = .rejected r) : Rejects r w := by
  simpa [h, ReadsFields] using decode_readsFields w

/-- 43_driver.md R171 as numbers. -/
theorem legalConfig_iff (kk nn : Byte) :
    legalConfig kk nn = true ↔ kk.toNat ≤ 64 ∧ 1 ≤ nn.toNat ∧ nn.toNat ≤ 64 := by
  simp [legalConfig, BitVec.le_def]

theorem keyLen_toNat (c : BitVec 16) : (keyLen c).toNat = c.toNat / 256 := by
  have := c.isLt
  rw [keyLen, BitVec.extractLsb'_toNat, Nat.shiftRight_eq_div_pow]
  omega

theorem hashLen_toNat (c : BitVec 16) : (hashLen c).toNat = c.toNat % 256 := by
  rw [hashLen, BitVec.extractLsb'_toNat, Nat.shiftRight_zero]

/-- The error of an instruction's own check, which comes after the one of BUSY (60_exceptions.md R228). -/
def ownError (i : Instr) (s : State) : ErrCode :=
  match i with
  | .cmdInit => if legalConfig (keyLen s.config) (hashLen s.config) = true then .none else .config
  | .cmdNext => if s.phase = .active then .none else .seq
  | .rdDigest _ => if s.phase = .done then .none else .seq
  | _ => .none

/-- The due error of a word that is an instruction: BUSY first, then the instruction's own check. -/
theorem dueError_instr {w : TxWord} {i : Instr} (h : decode w = .instr i) (s : State) :
    dueError w s = if s.busy = true ∧ i ≠ .rdStatus then .busy else ownError i s := by
  obtain ⟨hwe, ha, hd⟩ := decode_instr_fields h
  have hl := legalConfig_iff (keyLen s.config) (hashLen s.config)
  rw [keyLen_toNat, hashLen_toNat] at hl
  cases i with
  | wrM k | rdM k | rdDigest k =>
    have hk := k.isLt
    simp only [encode, txIsWrite_txWord, txAddr_txWord] at hwe ha
    simp only [dueError, ownError, hwe, ha, BitVec.toNat_ofNat]
    grind
  | cmdInit =>
    simp only [encode, Command.opcode, txIsWrite_txWord, txAddr_txWord, txData_txWord] at hwe ha hd
    simp [dueError, ownError, hwe, ha, hd, hl, -not_and]
  | _ =>
    simp only [encode, Command.opcode, txIsWrite_txWord, txAddr_txWord, txData_txWord] at hwe ha hd
    simp [dueError, ownError, hwe, ha, hd]

/-- The due error of a word that is no instruction: BUSY first, then the error of the rejection. -/
theorem dueError_rejected {w : TxWord} {r : Reject} (h : decode w = .rejected r) (s : State) :
    dueError w s = if s.busy = true then .busy else rejectCode r := by
  have hr := decode_rejected_fields h
  simp only [dueError]
  cases r with
  | reservedAddress | readOnlyRegister | writeOnlyRegister | illegalCommand =>
    simp only [Rejects] at hr
    grind [rejectCode]

end Sys2Proof.Machine
end

section
/-! PROOFS. The counters as numbers, and the invariant of the control state (O47, O25, O26). -/

namespace Sys2Proof.Machine

variable {s : State}

/-- 42_message_assembler.md R155. -/
theorem isLast_iff (r : Count) : isLast r = true ↔ r.toNat ≤ 128 := by
  simp [isLast, BitVec.le_def]

theorem isLast_eq_false_iff (r : Count) : isLast r = false ↔ 128 < r.toNat := by
  rw [← Bool.not_eq_true, isLast_iff, Nat.not_le]

/-- The block's byte count (42_message_assembler.md R156). -/
theorem blockCount_toNat (r : Count) : (blockCount r).toNat = min 128 r.toNat := by
  unfold blockCount
  split
  next h =>
    rw [isLast_iff] at h
    simp only [BitVec.extractLsb'_toNat, Nat.shiftRight_zero]
    omega
  next h =>
    rw [isLast_iff] at h
    exact (Nat.min_eq_left (Nat.le_of_lt (Nat.not_le.mp h))).symm

/-- NEXT adds the block's bytes to T, which does not wrap while the sum of the counters is a combined length. -/
theorem nextState_t_toNat (h : s.t.toNat + s.remain.toNat ≤ 2 ^ 64 + 127) :
    (nextState s).t.toNat = s.t.toNat + min 128 s.remain.toNat := by
  have hn := blockCount_toNat s.remain
  simp only [nextState, BitVec.toNat_add, BitVec.toNat_setWidth, hn]
  omega

/-- NEXT takes the block's bytes from REMAIN, which never underflows. -/
theorem nextState_remain_toNat : (nextState s).remain.toNat = s.remain.toNat - min 128 s.remain.toNat := by
  have hn := blockCount_toNat s.remain
  have hr := s.remain.isLt
  simp only [nextState, BitVec.toNat_sub, BitVec.toNat_setWidth, hn]
  omega

/-- INIT's value of REMAIN does not wrap (42_message_assembler.md R150). -/
theorem combinedLength_toNat (msglen : Word) (kk : Byte) :
    (combinedLength msglen kk).toNat = msglen.toNat + if 0 < kk.toNat then 128 else 0 := by
  have := msglen.isLt
  unfold combinedLength
  simp only [gt_iff_lt, BitVec.lt_def, BitVec.ofNat_eq_ofNat, BitVec.toNat_ofNat, BitVec.toNat_add,
    BitVec.toNat_setWidth]
  split <;> rw [BitVec.toNat_ofNat] <;> omega

/-- Settles O47: the invariant bounds T + REMAIN, so both counters move by the block's byte count as numbers. -/
theorem nextConservesTheCombinedLength : Obligations.NextConservesTheCombinedLength := by
  unfold Obligations.NextConservesTheCombinedLength
  intro s t ⟨_, _, _, ⟨hsum, _⟩, _⟩ hb hp h
  obtain ⟨-, hnext, -⟩ := exec_commands hb
  obtain rfl : nextState s = t := by
    rw [hnext, if_pos hp] at h
    exact Host_next_inj h
  have ht := nextState_t_toNat hsum
  have hr := nextState_remain_toNat (s := s)
  exact ⟨by omega, ht, hr⟩

/-- WIPE and reset leave a state that meets the invariant, from any state. -/
theorem inv_clearEngine (s : State) : s.clearEngine.Inv :=
  ⟨⟨fun _ => ⟨rfl, rfl⟩, nofun, nofun⟩, fun _ => ⟨rfl, rfl, rfl, rfl, rfl, rfl, rfl, rfl⟩, fun h => absurd rfl h,
    ⟨Nat.zero_le _, fun _ => rfl, nofun, nofun, nofun, nofun⟩, nofun⟩

/-- An accepted INIT keeps the invariant: the configuration it latches is legal and T starts at 0. -/
theorem inv_initState (hi : s.Inv) (hb : s.busy = false)
    (hl : legalConfig (keyLen s.config) (hashLen s.config) = true) : (initState s).Inv := by
  obtain ⟨⟨hidle, hround, -⟩, -⟩ := hi
  have hc := combinedLength_toNat s.msglen (keyLen s.config)
  have hm := s.msglen.isLt
  refine ⟨⟨hidle, hround, fun _ => rfl⟩, nofun, fun _ => hl, ?_, ?_⟩
  · refine ⟨?_, fun _ => rfl, nofun, nofun, fun _ _ => rfl, fun h => ?_⟩
    · rw [initState_t, initState_remain, hc, BitVec.ofNat_eq_ofNat, BitVec.toNat_zero]
      split <;> omega
    · simp [hb] at h
  · intro hk
    have hpos : 0 < (keyLen s.config).toNat := by simpa [BitVec.lt_def] using hk
    refine ⟨rfl, hpos, fun _ => ⟨rfl, ?_⟩, fun h => ?_⟩
    · rw [initState_remain, hc, if_pos hpos]
      omega
    · simp [hb] at h

/-- An accepted NEXT keeps the invariant: LASTF = 0 before it, so T counts whole blocks, and its own LASTF says whether
REMAIN reaches 0. -/
theorem inv_nextState (hi : s.Inv) (hb : s.busy = false) (hp : s.phase = .active) : (nextState s).Inv := by
  obtain ⟨-, -, hlegal, ⟨hsum, hwhole, -, -, hopen, -⟩, hkey⟩ := hi
  have hwhole := hwhole (hopen hp hb)
  have ht := nextState_t_toNat hsum
  have hr := nextState_remain_toNat (s := s)
  refine ⟨⟨nofun, fun _ => rfl, fun _ => hp⟩, fun h => ?_, hlegal, ⟨by omega, ?_, ?_, ?_, ?_, ?_⟩, ?_⟩
  · simp [hp] at h
  · intro h
    rw [nextState_lastf, isLast_eq_false_iff] at h
    omega
  · intro h
    rw [nextState_lastf, isLast_iff] at h
    exact BitVec.eq_of_toNat_eq (by rw [hr, BitVec.ofNat_eq_ofNat, BitVec.toNat_zero]; omega)
  · intro h
    simp [hp] at h
  · exact fun _ => nofun
  · intro _ h
    rw [nextState_lastf, isLast_eq_false_iff] at h
    omega
  · intro hk
    obtain ⟨-, hpos, hfirst, -⟩ := hkey hk
    obtain ⟨ht0, hfull⟩ := hfirst hb
    refine ⟨hp, hpos, nofun, fun _ => BitVec.eq_of_toNat_eq ?_⟩
    rw [ht, ht0, Nat.min_eq_left hfull]
    rfl

@[simp] theorem finalize_phase (s : State) : (finalize s).phase = if s.lastf then .done else .active := rfl

/-- The finalize step ends in DONE exactly when the block is the last one (41_compression.md R142). -/
theorem finalize_phase_cases (s : State) :
    (s.lastf = true ∧ (finalize s).phase = .done) ∨ (s.lastf = false ∧ (finalize s).phase = .active) := by
  rw [finalize_phase]
  cases s.lastf with
  | true => exact .inl ⟨rfl, rfl⟩
  | false => exact .inr ⟨rfl, rfl⟩

/-- The finalize step keeps the invariant: PHASE becomes DONE exactly with LASTF. -/
theorem inv_finalize (hi : s.Inv) (hb : s.busy = true) : (finalize s).Inv := by
  obtain ⟨⟨-, -, hactive⟩, -, hlegal, ⟨hsum, hwhole, hrest, -⟩, -⟩ := hi
  have hlegal := hlegal (by rw [hactive hb]; nofun)
  obtain ⟨hl, hp⟩ | ⟨hl, hp⟩ := finalize_phase_cases s
  · refine ⟨⟨fun _ => ⟨rfl, rfl⟩, nofun, nofun⟩, fun h => ?_, fun _ => hlegal,
      ⟨hsum, hwhole, hrest, fun _ => hl, fun h => ?_, nofun⟩, nofun⟩ <;>
      · rw [hp] at h
        contradiction
  · refine ⟨⟨fun _ => ⟨rfl, rfl⟩, nofun, nofun⟩, fun h => ?_, fun _ => hlegal,
      ⟨hsum, hwhole, hrest, fun h => ?_, fun _ _ => hl, nofun⟩, nofun⟩ <;>
      · rw [hp] at h
        contradiction

/-- A mix keeps the invariant, which of a busy state restricts only the sequencing position. -/
theorem inv_mix (hi : s.Inv) (hb : s.busy = true) (v : Vector Word 16) (r : Fin 13) (g : Fin 8) (hg : r = 12 → g = 0) :
    State.Inv { s with v := v, rnd := r, gix := g } := by
  obtain ⟨⟨-, -, hactive⟩, -, hlegal, hcount, hkey⟩ := hi
  refine ⟨⟨fun h => ?_, hg, hactive⟩, fun h => ?_, hlegal, hcount, hkey⟩
  · simp [hb] at h
  · simp [hactive hb] at h

/-- An engine step keeps the invariant. -/
theorem inv_engineStep (hi : s.Inv) (hb : s.busy = true) : (engineStep s).Inv := by
  rcases engineStep_cases s with ⟨_, _, h⟩ | ⟨hr, _, h⟩ | ⟨_, h⟩ <;> rw [h]
  · exact inv_mix hi hb _ _ _ fun _ => rfl
  · exact inv_mix hi hb _ _ _ fun h12 => absurd hr (by rw [h12]; decide)
  · exact inv_finalize hi hb

/-- Settles O25: by cases on what a step can do. The fields of the host's side, ERRCODE, CONFIG, MSGLEN and M do not
occur in the invariant, so a step that changes only those keeps it as it stands. -/
theorem invariantIsKept : Obligations.InvariantIsKept := by
  unfold Obligations.InvariantIsKept
  intro s t hi h
  rcases step_effects h with ⟨-, rfl⟩ | ⟨hm, rfl⟩ | ⟨-, q, r, sc, e, rfl⟩ | ⟨-, q, sc, hb, hw⟩ | ⟨-, q, sc, rfl⟩
  · exact hi
  · have hb := mover_engine hm
    rw [drawn_eq]
    exact inv_engineStep hi hb
  · exact hi
  · rcases hw with ⟨d, -, rfl⟩ | ⟨d, -, rfl⟩ | ⟨k, d, -, rfl⟩ | ⟨⟨-, -, hl⟩, rfl⟩ | ⟨⟨-, -, hp⟩, rfl⟩ | ⟨-, rfl⟩
    · exact hi
    · exact hi
    · exact hi
    · exact inv_initState hi hb hl
    · exact inv_nextState hi hb hp
    · exact inv_clearEngine _
  · exact inv_clearEngine _

/-- Settles O26: the reset state is a cleared state, and its BUSY is 0. -/
theorem invariantsHoldAtReset : Obligations.InvariantsHoldAtReset :=
  ⟨inv_clearEngine State.reset, nofun⟩

end Sys2Proof.Machine
end

section
/-! PROOFS. What the host can learn of H and V (O53, O54). -/

namespace Sys2Proof.Machine

variable {s s' : State}

theorem sameButHidden_cases (h : sameButHidden s s') : ∃ x y, s' = { s with h := x, v := y } := ⟨_, _, h⟩

/-- The states that two moves answer are the same to a host that reads no digest. -/
def ResultsAgree (r r' : Result) : Prop := ∀ t t', r = .next t → r' = .next t' → sameButHidden t t'

theorem resultsAgree_next (h : sameButHidden s s') : ResultsAgree (.next s) (.next s') := by
  intro t t' ht ht'
  rwa [← Host_next_inj ht, ← Host_next_inj ht']

theorem sameButHidden_reply (hs : sameButHidden s s') (x : Word) : sameButHidden (s.reply x) (s'.reply x) := by
  rw [hs]; rfl

theorem sameButHidden_refusedState (hs : sameButHidden s s') (w : Bool) (e : ErrCode) :
    sameButHidden (refusedState w e s) (refusedState w e s') := by
  rw [hs, refusedState_eq, refusedState_eq]; rfl

/-- The check of BUSY does not look at H or V. -/
theorem resultsAgree_unlessBusy (hs : sameButHidden s s') (w : Bool) {r r' : Result} (h : ResultsAgree r r') :
    ResultsAgree (unlessBusy w s r) (unlessBusy w s' r') := by
  have hb : s'.busy = s.busy := by rw [hs]
  cases hb' : s.busy
  · rwa [unlessBusy_free _ _ hb', unlessBusy_free _ _ (hb.trans hb')]
  · rw [unlessBusy_busy _ _ hb', unlessBusy_busy _ _ (hb.trans hb')]
    exact resultsAgree_next (sameButHidden_refusedState hs _ _)

/-- The one instruction that shows any of H is RD DIGEST in DONE, and none shows V: where the digest words agree, every
instruction answers states that differ in H and V only. -/
theorem exec_agree (hs : sameButHidden s s')
    (hd : s.phase = .done → ∀ k, digestWord s'.h s.hl k = digestWord s.h s.hl k) (i : Instr) :
    ResultsAgree (exec i s) (exec i s') := by
  obtain ⟨x, y, rfl⟩ := sameButHidden_cases hs
  cases i with
  | rdStatus => exact resultsAgree_next (sameButHidden_reply hs _)
  | rdConfig | rdMsglen | rdTLo | rdTHi | rdM =>
    exact resultsAgree_unlessBusy hs _ (resultsAgree_next (sameButHidden_reply hs _))
  | wrConfig | wrMsglen | wrM | cmdWipe => exact resultsAgree_unlessBusy hs _ (resultsAgree_next rfl)
  | cmdInit | cmdNext =>
    refine resultsAgree_unlessBusy hs _ ?_
    split
    · exact resultsAgree_next rfl
    · exact resultsAgree_next (sameButHidden_refusedState hs _ _)
  | rdDigest k =>
    refine resultsAgree_unlessBusy hs _ ?_
    split
    next hp =>
      rw [hd hp k]
      exact resultsAgree_next (sameButHidden_reply hs _)
    next => exact resultsAgree_next (sameButHidden_refusedState hs _ _)

/-- The same for every transaction, rejected words included. -/
theorem transact_agree (hs : sameButHidden s s')
    (hd : s.phase = .done → ∀ k, digestWord s'.h s.hl k = digestWord s.h s.hl k) (w : TxWord) :
    ResultsAgree (transact 8 w s) (transact 8 w s') := by
  have hb : s'.busy = s.busy := by rw [hs]
  cases hw : decode w with
  | instr i => simpa only [transact_instr hw] using exec_agree hs hd i
  | rejected r =>
    rw [transact_rejected hw, transact_rejected hw, hb]
    exact resultsAgree_next (sameButHidden_refusedState hs _ _)

theorem sameButHidden_replies (h : sameButHidden s s') : s'.replies = s.replies := by rw [h]

/-- Settles O53: outside DONE no digest word is returned. -/
theorem hashIsHiddenUntilDone : Obligations.HashIsHiddenUntilDone := by
  unfold Obligations.HashIsHiddenUntilDone
  intro s s' t t' w hs hp ht ht'
  have hagree := transact_agree hs (fun hdone => absurd hdone hp) w t t' ht ht'
  exact ⟨sameButHidden_replies hagree, hagree⟩

/-- Digest byte 8·i + k is byte k of H[i] (43_driver.md R185). -/
theorem hashByte_word (h : Vector Word 8) (i : Fin 8) (k : Nat) (hk : k < 8) :
    hashByte h ⟨8 * i.val + k, by omega⟩ = byteOf (h.get i) k := by
  have hdiv : (8 * i.val + k) / 8 = i.val := by omega
  have hmod : (8 * i.val + k) % 8 = k := by omega
  simp only [hashByte, hdiv, hmod]

/-- DIGEST shows the digest bytes below HL and no others (10_state.md R38). -/
theorem digestWord_congr {h h' : Vector Word 8} {hl : Byte}
    (hb : ∀ j : Fin 64, j.val < hl.toNat → hashByte h' j = hashByte h j) (i : Fin 8) :
    digestWord h' hl i = digestWord h hl i := by
  apply word_ext_bytes
  intro k hk
  simp only [digestWord, byteOf_keepBelow _ _ _ k hk]
  split
  next hlt => simpa only [hashByte_word _ _ k hk] using hb ⟨8 * i.val + k, by omega⟩ hlt
  next => rfl

/-- Settles O54: the digest words agree when the bytes below HL do. -/
theorem digestRevealsOnlyBytesBelowHl : Obligations.DigestRevealsOnlyBytesBelowHl := by
  unfold Obligations.DigestRevealsOnlyBytesBelowHl
  intro s s' t t' w hs hbytes ht ht'
  exact sameButHidden_replies (transact_agree hs (fun _ => digestWord_congr hbytes) w t t' ht ht')

end Sys2Proof.Machine
end

section
/-! PROOFS. Which moves change which elements (O22, O23, O24). -/

namespace Sys2Proof.Machine

variable {s t : State}

@[simp] theorem clearEngine_rnd (s : State) : s.clearEngine.rnd = 0 := rfl
@[simp] theorem clearEngine_gix (s : State) : s.clearEngine.gix = 0 := rfl

@[simp] theorem finalize_config (s : State) : (finalize s).config = s.config := rfl
@[simp] theorem finalize_msglen (s : State) : (finalize s).msglen = s.msglen := rfl
@[simp] theorem finalize_errcode (s : State) : (finalize s).errcode = s.errcode := rfl

/-- A write of word k leaves the bytes of the other words. -/
theorem blockByte_set_ne (m : Vector Word 16) (k : Fin 16) (d : Word) (j : Fin 128) (h : k.val ≠ j.val / 8) :
    blockByte (m.set k d) j = blockByte m j := by
  unfold blockByte
  exact congrArg (byteOf · _) (Vector.getElem_set_ne _ _ h)

/-- Settles O22: the word's fields name the one register that a write changes, and a command's fields are excluded. -/
theorem onlyCommandsTouchTheHash : Obligations.OnlyCommandsTouchTheHash := by
  unfold Obligations.OnlyCommandsTouchTheHash
  intro w s t h hcmd
  obtain ⟨-, ⟨i, hd, he⟩ | ⟨r, e, -, rfl⟩⟩ := transact_cases h
  · obtain ⟨hwe, ha, -⟩ := decode_instr_fields hd
    rcases exec_cases he with ⟨wr, e, rfl⟩ | ⟨x, rfl⟩ | ⟨-, heff⟩
    · rw [refusedState_eq]
      exact ⟨rfl, fun _ => rfl, fun _ => rfl, fun _ _ => rfl⟩
    · exact ⟨rfl, fun _ => rfl, fun _ => rfl, fun _ _ => rfl⟩
    rcases heff with ⟨d, rfl, rfl⟩ | ⟨d, rfl, rfl⟩ | ⟨k, d, rfl, rfl⟩ | ⟨rfl, -⟩ | ⟨rfl, -⟩ | ⟨rfl, -⟩
    all_goals simp only [encode, txIsWrite_txWord, txAddr_txWord] at hwe ha
    · exact ⟨rfl, fun hne => by simp [hwe, ha] at hne, fun _ => rfl, fun _ _ => rfl⟩
    · exact ⟨rfl, fun _ => rfl, fun hne => by simp [hwe, ha] at hne, fun _ _ => rfl⟩
    · refine ⟨rfl, fun _ => rfl, fun _ => rfl, fun j hne => blockByte_set_ne _ _ _ _ ?_⟩
      have hk := k.isLt
      simp only [hwe, ha, BitVec.toNat_ofNat, Bool.true_eq_false, or_false] at hne
      omega
    all_goals exact absurd ⟨hwe, ha⟩ hcmd
  · rw [refusedState_eq]
    exact ⟨rfl, fun _ => rfl, fun _ => rfl, fun _ _ => rfl⟩

/-- The error an instruction records when there is none yet (60_exceptions.md R223, R228). -/
theorem exec_errcode {i : Instr} (he : s.errcode = .none) (h : exec i s = .next t) :
    t.errcode = if s.busy = true ∧ i ≠ .rdStatus then .busy else ownError i s := by
  have href : ∀ w e, (refusedState w e s).errcode = e := fun w e => by rw [refusedState_eq, he]; rfl
  by_cases hi : i = .rdStatus
  · subst hi
    rw [← Host_next_inj h]
    simpa [ownError] using he
  cases hb : s.busy with
  | true =>
    obtain ⟨w, hr⟩ := exec_busy hb hi
    rw [hr] at h
    rw [← Host_next_inj h, href, if_pos ⟨rfl, hi⟩]
  | false =>
    obtain ⟨hconf, hlen, hm⟩ := exec_writes hb
    obtain ⟨h1, h2, h3, h4, h5, h6⟩ := exec_reads hb
    obtain ⟨hinit, hnext, hwipe⟩ := exec_commands hb
    rw [if_neg (by simp)]
    cases i with
    | rdStatus => contradiction
    | cmdInit | cmdNext | rdDigest =>
      simp only [hinit, hnext, h6] at h
      simp only [ownError]
      split at h
      next hc => simp [← Host_next_inj h, hc, he]
      next hc => rw [← Host_next_inj h, href, if_neg hc]
    | _ =>
      simp only [hconf, hlen, hm, h1, h2, h3, h4, h5, hwipe] at h
      simp [← Host_next_inj h, ownError, he]

/-- From ERRCODE = 0 a transaction leaves ERRCODE at its due error, which is 0 when it is performed. -/
theorem transact_errcode {w : TxWord} (he : s.errcode = .none) (h : transact 8 w s = .next t) :
    t.errcode = dueError w s := by
  cases hd : decode w with
  | instr i =>
    rw [transact_instr hd] at h
    rw [dueError_instr hd, exec_errcode he h]
  | rejected r =>
    rw [transact_rejected hd] at h
    rw [dueError_rejected hd, ← Host_next_inj h, refusedState_eq, he]
    rfl

/-- A host move that records an error presents the transaction whose due error it is. -/
theorem host_errcode {op : HostOp} {rest : List HostOp} (hm : s.mover = some .host) (hq : s.queue = op :: rest)
    (he : s.errcode = .none) (h : step s = .next t) (hne : t.errcode ≠ .none) :
    ∃ w rest, s.queue = .tx 8 w :: rest ∧ t.errcode = dueError w s := by
  rw [step_host hm hq] at h
  cases op with
  | tx width w =>
    obtain ⟨rfl, -⟩ := transact_cases h
    have hdue := transact_errcode (by rw [drawn_errcode, he]) h
    exact ⟨w, rest, hq, by rw [hdue, drawn_eq]; rfl⟩
  | poll =>
    rw [hostMove, pollMove_eq] at h
    refine absurd ?_ hne
    rw [← Host_next_inj h]
    split <;> simp [he]
  | reset => exact absurd (by rw [← Host_next_inj h]; rfl) hne

/-- Every change of ERRCODE and what makes it (60_exceptions.md R223, R229). -/
theorem step_errcode (h : step s = .next t) (hne : t.errcode ≠ s.errcode) :
    s.AcceptsInit ∨ s.AcceptsWipe ∨ s.PresentsReset ∨
      (s.errcode = .none ∧ s.mover = some .host ∧
        ∃ w rest, s.queue = .tx 8 w :: rest ∧ t.errcode = dueError w s) := by
  rcases step_effects h with ⟨-, rfl⟩ | ⟨-, rfl⟩ | ⟨hm, q, r, sc, e, ht⟩ | ⟨-, q, sc, -, hw⟩ | ⟨hr, -⟩
  · exact absurd rfl hne
  · rw [engineStep_frame] at hne
    exact absurd (drawn_errcode s) hne
  · have he : s.errcode = .none := Decidable.not_not.mp fun hset => hne (by rw [ht]; exact if_neg hset)
    obtain ⟨op, rest, hq⟩ := mover_host hm
    exact .inr (.inr (.inr ⟨he, hm, host_errcode hm hq he h (he ▸ hne)⟩))
  · rcases hw with ⟨d, -, rfl⟩ | ⟨d, -, rfl⟩ | ⟨k, d, -, rfl⟩ | ⟨hacc, -⟩ | ⟨-, rfl⟩ | ⟨hacc, -⟩
    · exact absurd rfl hne
    · exact absurd rfl hne
    · exact absurd rfl hne
    · exact .inl hacc
    · exact absurd rfl hne
    · exact .inr (.inl hacc)
  · exact .inr (.inr (.inl hr))

/-- Settles O23: by cases on what a step can do. In each case the elements that the move leaves alone meet no premise,
and the others have the move as their rule; ERRCODE is `step_errcode`. While BUSY = 0 the sequencing position is (0, 0),
so NEXT and WIPE do not change it. -/
theorem elementsAreWrittenOnlyByTheirRules : Obligations.ElementsAreWrittenOnlyByTheirRules := by
  unfold Obligations.ElementsAreWrittenOnlyByTheirRules
  intro s t hseq h
  have herr := step_errcode h
  rcases step_effects h with ⟨-, rfl⟩ | ⟨hm, rfl⟩ | ⟨-, q, r, sc, e, rfl⟩ | ⟨-, q, sc, hb, hw⟩ | ⟨hr, q, sc, rfl⟩
  · simp
  · rcases engineStep_cases s.drawn with ⟨_, _, heng⟩ | ⟨_, _, heng⟩ | ⟨h12, heng⟩ <;> rw [heng]
    · simp [hm]
    · simp [hm]
    · have hfin : s.Finalizes := ⟨hm, by rwa [drawn_rnd] at h12⟩
      simp [hm, hfin]
  · simpa using herr
  · obtain ⟨hrnd, hgix⟩ := hseq.1 hb
    rcases hw with ⟨d, hrun, rfl⟩ | ⟨d, hrun, rfl⟩ | ⟨k, d, hrun, rfl⟩ | ⟨hacc, rfl⟩ | ⟨hacc, rfl⟩ | ⟨hacc, rfl⟩
    · have hwr : ∃ d, s.Runs (.wrConfig d) := ⟨d, hrun⟩
      simp [hwr]
    · have hwr : ∃ d, s.Runs (.wrMsglen d) := ⟨d, hrun⟩
      simp [hwr]
    · have hwr : ∃ k d, s.Runs (.wrM k d) := ⟨k, d, hrun⟩
      simp [hwr]
    · simp [hacc]
    · simp [hacc, hrnd, hgix]
    · simp [hacc, hb, hrnd, hgix]
  · simp [hr]

/-- Settles O24: only INIT, WIPE, a reset and the finalize step of a last block change PHASE. -/
theorem phaseMovesAsTheStateMachineSays : Obligations.PhaseMovesAsTheStateMachineSays := by
  unfold Obligations.PhaseMovesAsTheStateMachineSays
  intro s t ⟨_, _, hactive⟩ h hne
  rcases step_effects h with ⟨-, rfl⟩ | ⟨hm, rfl⟩ | ⟨-, q, r, sc, e, rfl⟩ | ⟨-, q, sc, hb, hw⟩ | ⟨hr, q, sc, rfl⟩
  · exact absurd rfl hne
  · have hp := hactive (mover_engine hm)
    rcases engineStep_cases s.drawn with ⟨_, _, heng⟩ | ⟨_, _, heng⟩ | ⟨h12, heng⟩ <;> rw [heng] at hne ⊢
    · exact absurd (drawn_phase s) hne
    · exact absurd (drawn_phase s) hne
    · obtain ⟨hl, hdone⟩ | ⟨-, hopen⟩ := finalize_phase_cases s.drawn
      · exact .inr (.inl ⟨hdone, hp, ⟨hm, by rwa [drawn_rnd] at h12⟩, by rwa [drawn_lastf] at hl⟩)
      · exact absurd (hopen.trans hp.symm) hne
  · exact absurd rfl hne
  · rcases hw with ⟨d, -, rfl⟩ | ⟨d, -, rfl⟩ | ⟨k, d, -, rfl⟩ | ⟨hacc, rfl⟩ | ⟨-, rfl⟩ | ⟨hacc, rfl⟩
    · exact absurd rfl hne
    · exact absurd rfl hne
    · exact absurd rfl hne
    · refine .inl ⟨rfl, ?_, hacc⟩
      rw [initState_phase] at hne
      cases hp : s.phase with
      | idle => exact .inl rfl
      | active => exact absurd hp.symm hne
      | done => exact .inr rfl
    · exact absurd rfl hne
    · exact .inr (.inr ⟨rfl, .inl hacc⟩)
  · exact .inr (.inr ⟨rfl, .inr hr⟩)

end Sys2Proof.Machine
end

section
/-! PROOFS. What a read answers, and the byte addresses of the registers (O21, O57). -/

namespace Sys2Proof.Machine

variable {s t : State} {w : TxWord}

/-- While BUSY = 1 an instruction is refused as the read or the write that its word is (60_exceptions.md R223, R224). -/
theorem exec_busy_eq (hb : s.busy = true) {i : Instr} (hi : i ≠ .rdStatus) :
    exec i s = .next (refusedState (txIsWrite (encode i)) .busy s) := by
  cases i with
  | rdStatus => contradiction
  | _ => rw [encode, txIsWrite_txWord]; exact unlessBusy_busy _ _ hb

/-- The word of the register that a read names; 0 for an instruction that reads none. -/
def registerWord (i : Instr) (s : State) : Word :=
  match i with
  | .rdConfig => configWord s.config
  | .rdMsglen => s.msglen
  | .rdStatus => statusWord s
  | .rdTLo => tLo s.t
  | .rdTHi => tHi s.t
  | .rdM k => s.m.get k
  | .rdDigest k => digestWord s.h s.hl k
  | _ => 0

/-- A read that BUSY does not refuse returns its register, unless its own check fails. -/
theorem exec_read {i : Instr} (hr : txIsWrite (encode i) = false) (hb : ¬ (s.busy = true ∧ i ≠ .rdStatus)) :
    exec i s = .next (if ownError i s = .none then s.reply (registerWord i s)
      else refusedState false (ownError i s) s) := by
  by_cases hi : i = .rdStatus
  · subst hi
    rfl
  have hfree : s.busy = false := by simpa [hi] using hb
  obtain ⟨hconf, hlen, hlo, hhi, hm, hdig⟩ := exec_reads hfree
  cases i with
  | wrConfig | wrMsglen | wrM | cmdInit | cmdNext | cmdWipe => simp [encode] at hr
  | rdStatus => contradiction
  | rdConfig => exact hconf
  | rdMsglen => exact hlen
  | rdTLo => exact hlo
  | rdTHi => exact hhi
  | rdM k => exact hm k
  | rdDigest k =>
    rw [hdig, ownError]
    split <;> rfl

theorem rejectCode_ne_none (r : Reject) : rejectCode r ≠ .none := by cases r <;> decide

/-- All that a read can do: with no error due it returns the register it names, else it is refused with the due error
(30_encoding.md R71, 60_exceptions.md R223). -/
theorem transact_read_cases (hw : txIsWrite w = false) (h : transact 8 w s = .next t) :
    (dueError w s = .none ∧ ∃ i, decode w = .instr i ∧ t = s.reply (registerWord i s)) ∨
    (dueError w s ≠ .none ∧ t = refusedState false (dueError w s) s) := by
  cases hd : decode w with
  | rejected r =>
    rw [transact_rejected hd, ← dueError_rejected hd, hw] at h
    refine .inr ⟨?_, (Host_next_inj h).symm⟩
    rw [dueError_rejected hd]
    split
    · decide
    · exact rejectCode_ne_none r
  | instr i =>
    obtain ⟨hwe, -⟩ := decode_instr_fields hd
    have hr : txIsWrite (encode i) = false := hwe.symm.trans hw
    have hdue := dueError_instr hd s
    rw [transact_instr hd] at h
    by_cases hb : s.busy = true ∧ i ≠ .rdStatus
    · rw [if_pos hb] at hdue
      rw [exec_busy_eq hb.1 hb.2, hr, ← hdue] at h
      exact .inr ⟨by rw [hdue]; decide, (Host_next_inj h).symm⟩
    · rw [if_neg hb] at hdue
      rw [exec_read hr hb, ← hdue] at h
      split at h
      next hok => exact .inl ⟨hok, i, rfl, (Host_next_inj h).symm⟩
      next herr => exact .inr ⟨herr, (Host_next_inj h).symm⟩

/-- The replies show in no register. -/
theorem registerWord_reply (i : Instr) (s : State) (x : Word) : registerWord i (s.reply x) = registerWord i s := by
  cases i <;> rfl

theorem dueError_reply (w : TxWord) (s : State) (x : Word) : dueError w (s.reply x) = dueError w s := rfl

/-- No check looks at ERRCODE or the replies. -/
theorem dueError_refusedState (w : TxWord) (wr : Bool) (e : ErrCode) (s : State) :
    dueError w (refusedState wr e s) = dueError w s := by
  rw [refusedState_eq]
  rfl

theorem refusedState_read_head? (e : ErrCode) (s : State) : (refusedState false e s).replies.head? = some 0 := rfl

/-- Settles O21: a performed read adds a reply, which no register shows and no check looks at; a refused read meets the
same due error again, and both return 0. -/
theorem readsAreIdempotent : Obligations.ReadsAreIdempotent := by
  unfold Obligations.ReadsAreIdempotent
  intro w s t u hw ht hu
  rcases transact_read_cases hw ht with ⟨hok, i, hd, rfl⟩ | ⟨herr, rfl⟩
  · refine ⟨?_, fun _ => rfl⟩
    rcases transact_read_cases hw hu with ⟨-, i', hd', rfl⟩ | ⟨herr, -⟩
    · obtain rfl : i = i' := by simpa [hd] using hd'
      rw [reply_replies, registerWord_reply]
      rfl
    · rw [dueError_reply] at herr
      exact absurd hok herr
  · refine ⟨?_, fun hok => absurd hok herr⟩
    rcases transact_read_cases hw hu with ⟨hok, -⟩ | ⟨-, rfl⟩
    · rw [dueError_refusedState] at hok
      exact absurd hok herr
    · rw [refusedState_read_head?, refusedState_read_head?]

/-- Settles O57: byte k < 8 is the remainder of the offset from BUS_BASE modulo 8, and ADDR its quotient. -/
theorem registerBytesHaveTheirOwnAddresses : Obligations.RegisterBytesHaveTheirOwnAddresses := by
  unfold Obligations.RegisterBytesHaveTheirOwnAddresses
  intro a a' k k'
  refine ⟨rfl, fun h => ?_⟩
  unfold regByteAddr at h
  exact ⟨BitVec.eq_of_toNat_eq (by omega), Fin.ext (by omega)⟩

end Sys2Proof.Machine
end

section
/-! PROOFS. How a step reaches the transaction at the head of the queue, and when it stops (O27, O28). -/

namespace Sys2Proof.Machine

variable {s : State}

/-- The decoder says which meaning a whole-word transaction runs. -/
theorem transact_decoded (w : TxWord) (s : State) :
    (∀ i, decode w = .instr i → transact 8 w s = exec i s) ∧
    (∀ r, decode w = .rejected r → transact 8 w s = execRejected r (txIsWrite w) s) :=
  ⟨fun _ hd => transact_instr hd s, fun _ hd => by simp [transact, hd]⟩

/-- While BUSY = 1 and the host presents something, the first draw says who moves and goes to the end of the list
(70_reset_and_hazards.md R258). -/
theorem mover_drawn_busy {a : Agent} {draws : List Agent} {op : HostOp} {rest : List HostOp} (hb : s.busy = true)
    (hq : s.queue = op :: rest) (hs : s.sched = a :: draws) :
    s.mover = some a ∧ s.drawn = { s with sched := draws ++ [a] } := by
  simp [State.mover, State.drawn, hb, hq, hs]

/-- Settles O27: the head of the queue and the draw say what moves, and the decoder says which meaning runs. -/
theorem stepRunsTheDecodedInstruction : Obligations.StepRunsTheDecodedInstruction := by
  unfold Obligations.StepRunsTheDecodedInstruction
  intro s w rest hq
  refine ⟨fun hb => ?_, fun draws hb hs => ?_, fun draws hb hs => ?_⟩
  · have hstep : step s = transact 8 w { s with queue := rest } := by
      rw [step_host (mover_free hb hq) hq, drawn_free hb, hostMove]
    rw [hstep]
    exact transact_decoded w _
  · obtain ⟨hm, hdraw⟩ := mover_drawn_busy hb hq hs
    have hstep : step s = transact 8 w { s with queue := rest, sched := draws ++ [.host] } := by
      rw [step_host hm hq, hdraw, hostMove]
    rw [hstep]
    exact transact_decoded w _
  · obtain ⟨hm, hdraw⟩ := mover_drawn_busy hb hq hs
    rw [step_engine hm, hdraw]

/-- A whole-word transaction has an answer, whatever its word (60_exceptions.md R230). -/
theorem transact_answers (w : TxWord) (s : State) : ∃ t, transact 8 w s = .next t := by
  cases hd : decode w with
  | instr i => rw [transact_instr hd]; exact exec_answers i s
  | rejected r => exact ⟨_, transact_rejected hd s⟩

/-- The host's move has an answer, unless it is a transaction of another width. -/
theorem hostMove_answers {op : HostOp} (h : ∀ width w, op = .tx width w → width = 8) (s : State) :
    ∃ t, hostMove op s = .next t := by
  cases op with
  | tx width w =>
    obtain rfl := h width w rfl
    exact transact_answers w s
  | poll => exact ⟨_, pollMove_eq s⟩
  | reset => exact ⟨_, rfl⟩

/-- Settles O28: by who moves; only the host's move can be refused, and only for its width. -/
theorem onlyNarrowTransactionsStop : Obligations.OnlyNarrowTransactionsStop := by
  unfold Obligations.OnlyNarrowTransactionsStop
  intro s
  constructor
  · rintro ⟨hm, width, w, rest, hq, hne⟩
    rw [step_host hm hq]
    exact transact_narrow hne _ _
  · intro hwide
    cases hm : s.mover with
    | none => exact ⟨_, step_none hm⟩
    | some a =>
      cases a with
      | engine => exact ⟨_, step_engine hm⟩
      | host =>
        obtain ⟨op, rest, hq⟩ := mover_host hm
        rw [step_host hm hq]
        refine hostMove_answers (fun width w hop => Decidable.byContradiction fun hne => ?_) _
        exact hwide ⟨hm, width, w, rest, hop ▸ hq, hne⟩

end Sys2Proof.Machine
end

section
/-! PROOFS. Encoding and decoding: the round trip, the canonical word of a read, and the rows of the opcode table
(O1 to O5). -/

namespace Sys2Proof.Machine

/-- Every address of M is the one of its word (30_encoding.md R72, R87). -/
theorem decode_txWord_m (we : Bool) (i : Fin 16) (d : Word) :
    decode (txWord we (BitVec.ofNat 8 (0x10 + i.val)) d) = .instr (if we then .wrM i d else .rdM i) := by
  have hm : (BitVec.ofNat 8 (0x10 + i.val)).extractLsb' 4 4 = 1#4 := by revert i; decide
  have hi : ((BitVec.ofNat 8 (0x10 + i.val)).extractLsb' 0 4).toFin = i := by revert i; decide
  simp only [decode, txIsWrite_txWord, txAddr_txWord, txData_txWord, hm, if_true, hi]

/-- A read of DIGEST (30_encoding.md R72, R87). -/
theorem decode_txWord_digest (i : Fin 8) (d : Word) :
    decode (txWord false (BitVec.ofNat 8 (0x20 + i.val)) d) = .instr (.rdDigest i) := by
  have hm : (BitVec.ofNat 8 (0x20 + i.val)).extractLsb' 4 4 ≠ 1#4 := by revert i; decide
  have hd : (BitVec.ofNat 8 (0x20 + i.val)).extractLsb' 3 5 = 4#5 := by revert i; decide
  have hi : ((BitVec.ofNat 8 (0x20 + i.val)).extractLsb' 0 3).toFin = i := by revert i; decide
  simp only [decode, txIsWrite_txWord, txAddr_txWord, hm, hd, hi, if_true, if_false, Bool.false_eq_true]

/-- The addresses below those of M (30_encoding.md R72). -/
theorem decode_txWord_control (we : Bool) {a : Addr} (ha : a.toNat < 0x10) (d : Word) :
    decode (txWord we a d) = decodeControl we a d := by
  have hm : ¬ a.extractLsb' 4 4 = 1#4 := by rw [extractLsb'_four_eq_one_iff]; omega
  have hd : ¬ a.extractLsb' 3 5 = 4#5 := by rw [extractLsb'_three_eq_four_iff]; omega
  simp only [decode, txIsWrite_txWord, txAddr_txWord, txData_txWord, if_neg hm, if_neg hd]

theorem decode_encode (i : Instr) : decode (encode i) = .instr i := by
  cases i with
  | wrM k d => exact decode_txWord_m true k d
  | rdM k => exact decode_txWord_m false k 0
  | rdDigest k => exact decode_txWord_digest k 0
  | _ => exact decode_txWord_control _ (by decide) _

/-- Settles O2: by the address of the instruction's word: M, DIGEST or below both. -/
theorem encodeThenDecodeIsTheInstruction : Obligations.EncodeThenDecodeIsTheInstruction := decode_encode

/-- WDATA of a read is a don't-care of the decoder (30_encoding.md R71). -/
theorem decode_read_ignores_data (a : Addr) (d d' : Word) : decode (txWord false a d) = decode (txWord false a d') := by
  have hc : decodeControl false a d = decodeControl false a d' := by unfold decodeControl; split <;> rfl
  simp [decode, hc]

/-- A read is encoded with WDATA = 0 (log entry 11). -/
theorem txData_encode_read {i : Instr} (h : txIsWrite (encode i) = false) : txData (encode i) = 0 := by
  cases i with
  | wrConfig | wrMsglen | cmdInit | cmdNext | cmdWipe | wrM => simp [encode] at h
  | _ => exact txData_txWord ..

/-- A word with the fields of an instruction is the instruction's own word, up to a read's WDATA. -/
theorem FieldsOf.encode_eq {i : Instr} {w : TxWord} (h : FieldsOf i w) :
    encode i = txWord (txIsWrite w) (txAddr w) (if txIsWrite w then txData w else 0) := by
  obtain ⟨hwe, ha, hd⟩ := h
  rw [← txWord_fields (encode i), ← hwe, ← ha]
  cases hw : txIsWrite w with
  | true => rw [← hd hw]; rfl
  | false => rw [txData_encode_read (hwe.symm.trans hw)]; rfl

/-- The decoder answers an instruction exactly for the words with its fields. -/
theorem decode_eq_instr_iff {w : TxWord} {i : Instr} : decode w = .instr i ↔ FieldsOf i w := by
  refine ⟨decode_instr_fields, fun h => ?_⟩
  have he := h.encode_eq
  rw [← decode_encode i, he]
  cases hw : txIsWrite w with
  | true => rw [if_pos rfl, ← hw, txWord_fields]
  | false =>
    calc decode w
      _ = decode (txWord false (txAddr w) (txData w)) := by rw [← hw, txWord_fields]
      _ = decode (txWord false (txAddr w) 0) := decode_read_ignores_data ..

@[simp] theorem txIsWrite_and (w w' : TxWord) : txIsWrite (w &&& w') = (txIsWrite w && txIsWrite w') :=
  BitVec.getLsbD_and

@[simp] theorem txAddr_and (w w' : TxWord) : txAddr (w &&& w') = txAddr w &&& txAddr w' := BitVec.extractLsb'_and

@[simp] theorem txData_and (w w' : TxWord) : txData (w &&& w') = txData w &&& txData w' := BitVec.extractLsb'_and

/-- Two words are the same when their fields are (30_encoding.md R70). -/
theorem txWord_ext_iff {w w' : TxWord} :
    w = w' ↔ txIsWrite w = txIsWrite w' ∧ txAddr w = txAddr w' ∧ txData w = txData w' := by
  refine ⟨fun h => h ▸ ⟨rfl, rfl, rfl⟩, fun ⟨hwe, ha, hd⟩ => ?_⟩
  rw [← txWord_fields w, hwe, ha, hd, txWord_fields]

/-- The mask of WE and ADDR clears WDATA. -/
theorem and_we_addr (w : TxWord) : w &&& 0x1FF0000000000000000 = txWord (txIsWrite w) (txAddr w) 0 := by
  have hmask : (0x1FF0000000000000000 : TxWord) = txWord true (BitVec.allOnes 8) 0 := by decide
  simp only [hmask, txWord_ext_iff, txIsWrite_and, txAddr_and, txData_and, txIsWrite_txWord, txAddr_txWord,
    txData_txWord, Bool.and_true, BitVec.and_allOnes, BitVec.ofNat_eq_ofNat, BitVec.and_zero, and_self]

/-- Settles O3: the fields of the word are those of the instruction's own word, whose WDATA is 0 for a read. -/
theorem decodeThenEncodeIsTheWord : Obligations.DecodeThenEncodeIsTheWord := by
  unfold Obligations.DecodeThenEncodeIsTheWord
  intro w i h
  rw [(decode_instr_fields h).encode_eq, and_we_addr]
  cases hw : txIsWrite w with
  | true => rw [if_pos rfl, if_pos rfl, ← hw, txWord_fields]
  | false => rfl

/-- The bits of ADDR that the row of an instruction fixes (30_encoding.md R72). -/
def addrMask : Instr → Addr
  | .wrM _ _ | .rdM _ => 0xF0
  | .rdDigest _ => 0xF8
  | _ => BitVec.allOnes 8

/-- The bits of WDATA that the row of an instruction fixes: all for a command, else none (30_encoding.md R73). -/
def dataMask : Instr → Word
  | .cmdInit | .cmdNext | .cmdWipe => BitVec.allOnes 64
  | _ => 0

theorem row_mask (i : Instr) : i.row.mask = txWord true (addrMask i) (dataMask i) := by
  cases i <;> simp only [Instr.row, addrMask, dataMask] <;> decide

/-- The encoder writes the fixed bits of the instruction's row. -/
theorem row_holds_encode (i : Instr) : i.row.holds (encode i) = true := by
  cases i with
  | wrConfig d => exact Laws.RowMatch.wrConfig d
  | rdConfig => exact Laws.RowMatch.rdConfig
  | wrMsglen d => exact Laws.RowMatch.wrMsglen d
  | rdMsglen => exact Laws.RowMatch.rdMsglen
  | cmdInit => exact Laws.RowMatch.cmdInit
  | cmdNext => exact Laws.RowMatch.cmdNext
  | cmdWipe => exact Laws.RowMatch.cmdWipe
  | rdStatus => exact Laws.RowMatch.rdStatus
  | rdTLo => exact Laws.RowMatch.rdTLo
  | rdTHi => exact Laws.RowMatch.rdTHi
  | wrM k d => exact Laws.RowMatch.wrM k d
  | rdM k => exact Laws.RowMatch.rdM k
  | rdDigest k => exact Laws.RowMatch.rdDigest k

theorem row_holds_iff_and {r : Row} {w : TxWord} : r.holds w = true ↔ w &&& r.mask = r.pattern := beq_iff_eq

/-- A word is of an instruction's row when it agrees with the instruction's own word on WE and on the bits of ADDR and
WDATA that the row fixes. -/
theorem row_holds_iff (i : Instr) (w : TxWord) :
    i.row.holds w = true ↔
      txIsWrite w = txIsWrite (encode i) ∧ txAddr w &&& addrMask i = txAddr (encode i) &&& addrMask i ∧
        txData w &&& dataMask i = txData (encode i) &&& dataMask i := by
  rw [row_holds_iff_and, ← row_holds_iff_and.mp (row_holds_encode i), row_mask, txWord_ext_iff]
  simp

/-- The row of a read leaves WDATA free. -/
theorem dataMask_read {i : Instr} (h : txIsWrite (encode i) = false) : dataMask i = 0 := by
  cases i with
  | cmdInit | cmdNext | cmdWipe => simp [encode] at h
  | _ => rfl

/-- The words with an instruction's fields are of its row. -/
theorem FieldsOf.row_holds {i : Instr} {w : TxWord} (h : FieldsOf i w) : i.row.holds w = true := by
  obtain ⟨hwe, ha, hd⟩ := h
  refine (row_holds_iff i w).mpr ⟨hwe, by rw [ha], ?_⟩
  cases hw : txIsWrite w with
  | true => rw [hd hw]
  | false => simp [dataMask_read (hwe.symm.trans hw)]

/-- The sixteen addresses with the fixed bits of those of M (30_encoding.md R72, R87). -/
theorem addr_of_m {a : Addr} {i : Fin 16} (h : a &&& 0xF0 = BitVec.ofNat 8 (0x10 + i.val) &&& 0xF0) :
    ∃ k : Fin 16, a = BitVec.ofNat 8 (0x10 + k.val) := by
  have hfixed : ∀ k : Fin 16, BitVec.ofNat 8 (0x10 + k.val) &&& 0xF0 = 0x10 := by decide
  have hindex : ∀ b : Addr, b &&& 0xF0 = 0x10 → b = BitVec.ofNat 8 (0x10 + b.toNat % 16) := by decide
  exact ⟨⟨a.toNat % 16, by omega⟩, hindex a (h.trans (hfixed i))⟩

/-- The eight addresses with the fixed bits of those of DIGEST (30_encoding.md R72, R87). -/
theorem addr_of_digest {a : Addr} {i : Fin 8} (h : a &&& 0xF8 = BitVec.ofNat 8 (0x20 + i.val) &&& 0xF8) :
    ∃ k : Fin 8, a = BitVec.ofNat 8 (0x20 + k.val) := by
  have hfixed : ∀ k : Fin 8, BitVec.ofNat 8 (0x20 + k.val) &&& 0xF8 = 0x20 := by decide
  have hindex : ∀ b : Addr, b &&& 0xF8 = 0x20 → b = BitVec.ofNat 8 (0x20 + b.toNat % 8) := by decide
  exact ⟨⟨a.toNat % 8, by omega⟩, hindex a (h.trans (hfixed i))⟩

/-- A word of a row has the fields of an instruction: the row's free bits are its index or its data. -/
theorem fieldsOf_of_row_holds {i : Instr} {w : TxWord} (h : i.row.holds w = true) : ∃ j, FieldsOf j w := by
  obtain ⟨hwe, ha, hd⟩ := (row_holds_iff i w).mp h
  cases i with
  | wrM k =>
    simp only [encode, txIsWrite_txWord, txAddr_txWord, addrMask] at hwe ha
    obtain ⟨k', hk⟩ := addr_of_m ha
    exact ⟨.wrM k' (txData w), by simp [FieldsOf, encode, hwe, hk]⟩
  | rdM k =>
    simp only [encode, txIsWrite_txWord, txAddr_txWord, addrMask] at hwe ha
    obtain ⟨k', hk⟩ := addr_of_m ha
    exact ⟨.rdM k', by simp [FieldsOf, encode, hwe, hk]⟩
  | rdDigest k =>
    simp only [encode, txIsWrite_txWord, txAddr_txWord, addrMask] at hwe ha
    obtain ⟨k', hk⟩ := addr_of_digest ha
    exact ⟨.rdDigest k', by simp [FieldsOf, encode, hwe, hk]⟩
  | wrConfig =>
    simp only [encode, txIsWrite_txWord, txAddr_txWord, addrMask, BitVec.and_allOnes] at hwe ha
    exact ⟨.wrConfig (txData w), by simp [FieldsOf, encode, hwe, ha]⟩
  | wrMsglen =>
    simp only [encode, txIsWrite_txWord, txAddr_txWord, addrMask, BitVec.and_allOnes] at hwe ha
    exact ⟨.wrMsglen (txData w), by simp [FieldsOf, encode, hwe, ha]⟩
  | cmdInit | cmdNext | cmdWipe =>
    simp only [addrMask, dataMask, BitVec.and_allOnes] at ha hd
    exact ⟨_, hwe, ha, fun _ => hd⟩
  | rdConfig | rdMsglen | rdStatus | rdTLo | rdTHi =>
    simp only [addrMask, BitVec.and_allOnes] at ha
    exact ⟨_, hwe, ha, fun hw => by simp [hwe, encode] at hw⟩

/-- The rows of the table are the rows of the instructions. -/
theorem mem_opcodeTable {r : Row} : r ∈ opcodeTable ↔ ∃ i : Instr, i.row = r := by
  refine ⟨fun h => ?_, ?_⟩
  · obtain ⟨i, -, hi⟩ := List.mem_map.mp h
    exact ⟨i, hi⟩
  · rintro ⟨i, rfl⟩
    cases i <;> simp [opcodeTable, rowSamples, Instr.row]

/-- Settles O4: a word is of a row exactly when it has the fields of an instruction of the row, and those are the words
that the decoder accepts. -/
theorem decoderAcceptsExactlyTheTable : Obligations.DecoderAcceptsExactlyTheTable := by
  unfold Obligations.DecoderAcceptsExactlyTheTable
  intro w
  have hown : ∀ i, decode w = .instr i → i.row.holds w = true := fun i h => (decode_instr_fields h).row_holds
  refine ⟨hown, ?_, fun ⟨i, h⟩ => ⟨i.row, mem_opcodeTable.mpr ⟨i, rfl⟩, hown i h⟩⟩
  rintro ⟨r, hr, hw⟩
  obtain ⟨i, rfl⟩ := mem_opcodeTable.mp hr
  obtain ⟨j, hj⟩ := fieldsOf_of_row_holds hw
  exact ⟨j, decode_eq_instr_iff.mpr hj⟩

/-- Two rows fix some bit that both cover to different values. -/
abbrev RowsClash (r r' : Row) : Prop := r.pattern &&& r'.mask ≠ r'.pattern &&& r.mask

/-- No word is of two rows that clash: masked by both, it would be the pattern of each. -/
theorem not_holds_both_of_clash {r r' : Row} (h : RowsClash r r') (w : TxWord) :
    ¬ (r.holds w = true ∧ r'.holds w = true) := by
  rintro ⟨hr, hr'⟩
  apply h
  rw [← row_holds_iff_and.mp hr, ← row_holds_iff_and.mp hr', BitVec.and_assoc, BitVec.and_assoc,
    BitVec.and_comm r.mask]

/-- Settles O5: any two rows of the table clash. -/
theorem tableRowsNeverOverlap : Obligations.TableRowsNeverOverlap := by
  have hclash : opcodeTable.Pairwise RowsClash := by decide
  exact hclash.imp fun h => not_holds_both_of_clash h

/-- Settles O1: the decoder runs on each of the seventeen words. -/
theorem sampleWordsDecode : Obligations.SampleWordsDecode := by
  unfold Obligations.SampleWordsDecode
  decide

end Sys2Proof.Machine
end

section
/-! PROOFS. What a transaction returns, the illegal command words, the STATUS word and POLL (O6, O8, O19, O31). -/

namespace Sys2Proof.Machine

variable {s t : State}

/-- A write returns nothing, refused or performed (30_encoding.md R71). -/
theorem exec_write_replies {i : Instr} (hw : txIsWrite (encode i) = true) (h : exec i s = .next t) :
    t.replies = s.replies := by
  have hrefused : ∀ e, (refusedState true e s).replies = s.replies := fun e => by rw [refusedState_eq]; rfl
  cases hb : s.busy with
  | true =>
    have hi : i ≠ .rdStatus := by rintro rfl; simp [encode] at hw
    rw [exec_busy_eq hb hi, hw] at h
    rw [← Host_next_inj h, hrefused]
  | false =>
    obtain ⟨hconf, hlen, hm⟩ := exec_writes hb
    obtain ⟨hinit, hnext, hwipe⟩ := exec_commands hb
    cases i with
    | wrConfig | wrMsglen | wrM | cmdWipe =>
      simp only [hconf, hlen, hm, hwipe] at h
      obtain rfl := Host_next_inj h
      rfl
    | cmdInit | cmdNext =>
      simp only [hinit, hnext] at h
      split at h
      · obtain rfl := Host_next_inj h
        rfl
      · rw [← Host_next_inj h, hrefused]
    | rdConfig | rdMsglen | rdStatus | rdTLo | rdTHi | rdM | rdDigest => simp [encode] at hw

/-- The same for every write transaction, rejected words included. -/
theorem transact_write_replies {w : TxWord} (hw : txIsWrite w = true) (h : transact 8 w s = .next t) :
    t.replies = s.replies := by
  obtain ⟨-, ⟨i, hd, he⟩ | ⟨r, e, -, rfl⟩⟩ := transact_cases h
  · obtain ⟨hwe, -⟩ := decode_instr_fields hd
    exact exec_write_replies (hwe.symm.trans hw) he
  · rw [refusedState_eq, hw]
    rfl

/-- A read returns one word, which is 0 when an error is due (30_encoding.md R71). -/
theorem transact_read_replies {w : TxWord} (hw : txIsWrite w = false) (h : transact 8 w s = .next t) :
    ∃ rdata, t.replies = rdata :: s.replies ∧ (dueError w s ≠ .none → rdata = 0) := by
  rcases transact_read_cases hw h with ⟨hok, i, -, rfl⟩ | ⟨-, rfl⟩
  · exact ⟨_, rfl, fun herr => absurd hok herr⟩
  · exact ⟨0, by rw [refusedState_eq]; rfl, fun _ => rfl⟩

/-- WDATA of a read is a don't-care of the whole transaction (30_encoding.md R71). -/
theorem transact_read_ignores_data (a : Addr) (d d' : Word) (s : State) :
    transact 8 (txWord false a d) s = transact 8 (txWord false a d') s := by
  simp only [transact, decode_read_ignores_data a d d', txIsWrite_txWord]

/-- Settles O6: the decoder ignores WDATA of a read, and every transaction has an answer. -/
theorem readsReplyAndIgnoreWdata : Obligations.ReadsReplyAndIgnoreWdata := by
  unfold Obligations.ReadsReplyAndIgnoreWdata
  intro a d s
  obtain ⟨t, ht⟩ := transact_answers (txWord false a d) s
  obtain ⟨u, hu⟩ := transact_answers (txWord true a d) s
  obtain ⟨rdata, hrep, hzero⟩ := transact_read_replies (txIsWrite_txWord ..) ht
  exact ⟨transact_read_ignores_data a d 0 s, ⟨t, rdata, ht, hrep, hzero⟩,
    ⟨u, hu, transact_write_replies (txIsWrite_txWord ..) hu⟩⟩

/-- An OPCODE that is no command, or an RSVD that is not 0 (30_encoding.md R81). -/
theorem decodeCommand_illegal {d : Word} (h : (d.extractLsb' 0 8).toNat ∉ [1, 2, 3] ∨ d.extractLsb' 8 56 ≠ 0) :
    decodeCommand d = .rejected .illegalCommand := by
  unfold decodeCommand
  split
  next => rfl
  next hrsvd =>
    have hop : (d.extractLsb' 0 8).toNat ∉ [1, 2, 3] := h.resolve_right hrsvd
    split
    case h_4 => rfl
    all_goals next hc => simp [hc] at hop

/-- Settles O8: the word is rejected, and a rejected write changes ERRCODE alone. -/
theorem illegalCommandWordsRaiseIllegalCmd : Obligations.IllegalCommandWordsRaiseIllegalCmd := by
  unfold Obligations.IllegalCommandWordsRaiseIllegalCmd
  intro d s hd
  have hdec : decode (txWord true 0x02 d) = .rejected .illegalCommand :=
    (decode_txWord_control true (by decide) d).trans (decodeCommand_illegal hd)
  rw [transact_rejected hdec, txIsWrite_txWord, refusedState_eq]
  constructor <;> intro hb <;> rw [hb] <;> rfl

/-- The concatenation of two bit vectors as a number. -/
theorem toNat_append_eq_add {m n : Nat} (x : BitVec m) (y : BitVec n) :
    (x ++ y).toNat = x.toNat * 2 ^ n + y.toNat := by
  rw [BitVec.toNat_append, ← Nat.shiftLeft_add_eq_or_of_lt y.isLt, Nat.shiftLeft_eq]

/-- STATUS as a number: each field at its bit, every reserved bit 0 (30_encoding.md R75). -/
theorem statusWord_toNat (s : State) :
    (statusWord s).toNat = s.busy.toNat + 2 * s.phase.bits.toNat + 8 * s.keypend.toNat + 16 * s.lastf.toNat +
      256 * s.errcode.bits.toNat := by
  have hp := s.phase.bits.isLt
  have he := s.errcode.bits.isLt
  have hb := s.busy.toNat_le
  have hk := s.keypend.toNat_le
  have hl := s.lastf.toNat_le
  simp only [statusWord, BitVec.toNat_setWidth, toNat_append_eq_add, BitVec.toNat_ofBool, BitVec.toNat_ofNat]
  omega

/-- Settles O19: STATUS is composed of the five fields, and RD STATUS has no check. -/
theorem statusReadIsAlwaysAccepted : Obligations.StatusReadIsAlwaysAccepted := by
  unfold Obligations.StatusReadIsAlwaysAccepted
  intro s
  refine ⟨statusWord s, rfl, ?_⟩
  rw [statusWord_toNat]
  cases s.phase <;> cases s.errcode <;> rfl

/-- The bit that POLL looks at is BUSY (30_encoding.md R75, R88). -/
theorem statusBusy_statusWord (s : State) : statusBusy (statusWord s) = s.busy := by
  simp only [statusBusy, statusWord, BitVec.getLsbD_setWidth, BitVec.getLsbD_append]
  simp

/-- After its STATUS read a POLL goes on exactly while BUSY = 1. -/
theorem pollAgain_reply_status (s : State) : pollAgain (s.reply (statusWord s)) = s.busy :=
  statusBusy_statusWord s

/-- Settles O31: a POLL at the head of the queue is one STATUS read, after which it stays exactly when BUSY = 1. -/
theorem pollRepeatsWhileBusy : Obligations.PollRepeatsWhileBusy := by
  unfold Obligations.PollRepeatsWhileBusy
  intro s rest hq
  refine ⟨fun hb => ?_, fun draws hb hs => ?_⟩
  · rw [step_host (mover_free hb hq) hq, drawn_free hb, hostMove, pollMove_eq, pollAgain_reply_status,
      if_neg (by simp [hb])]
    rfl
  · obtain ⟨hm, hdraw⟩ := mover_drawn_busy hb hq hs
    rw [step_host hm hq, hdraw, hostMove, pollMove_eq, pollAgain_reply_status, if_pos hb, ← hq]
    rfl

end Sys2Proof.Machine
end

section
/-! PROOFS. Loading a block with LDBLK (O51). -/

namespace Sys2Proof.Machine

variable {s t : State}

/-- Operations run one after another. -/
theorem runFused_append (ops ops' : List HostOp) (s : State) :
    runFused (ops ++ ops') s = (runFused ops s).bind (runFused ops') := by
  induction ops generalizing s with
  | nil => rfl
  | cons op ops ih =>
    cases op with
    | tx width w =>
      simp only [List.cons_append, runFused]
      cases transact width w s with
      | next t => exact ih _
      | fault r => rfl
      | refused r => rfl
    | poll => exact ih _
    | reset => exact ih _

/-- While BUSY = 0 a write of word n of the block stores it (43_driver.md R178). -/
theorem runFused_writeOp_m {n : Nat} (hn : n < 16) (x : Word) (hb : s.busy = false) :
    runFused [writeOp (.m n) x] s = some { s with m := s.m.set n x } := by
  have hw : transact 8 (txWord true (Reg.m n).addr x) s = .next { s with m := s.m.set n x } := by
    obtain ⟨-, -, hm⟩ := exec_writes hb
    exact (transact_instr (decode_txWord_m true ⟨n, hn⟩ x) s).trans (hm ⟨n, hn⟩ x)
  simp [writeOp, runFused, hw, hb]

/-- The block with `f` in its first n words. -/
def storeWords (f : Nat → Word) (n : Nat) (m : Vector Word 16) : Vector Word 16 :=
  Vector.ofFn fun i => if i.val < n then f i.val else m.get i

theorem storeWords_get (f : Nat → Word) (n : Nat) (m : Vector Word 16) (i : Fin 16) :
    (storeWords f n m).get i = if i.val < n then f i.val else m.get i :=
  Vector.getElem_ofFn _

theorem storeWords_zero (f : Nat → Word) (m : Vector Word 16) : storeWords f 0 m = m := by
  apply Vector.ext
  intro i hi
  rw [storeWords, Vector.getElem_ofFn, if_neg (Nat.not_lt_zero i)]
  rfl

theorem storeWords_succ (f : Nat → Word) {n : Nat} (hn : n < 16) (m : Vector Word 16) :
    storeWords f (n + 1) m = (storeWords f n m).set n (f n) := by
  apply Vector.ext
  intro i hi
  by_cases h : n = i
  · subst h; simp [storeWords]
  · have hlt : i < n + 1 ↔ i < n := by omega
    simp only [storeWords, Vector.getElem_set_ne _ _ h, Vector.getElem_ofFn, hlt]

/-- Writes of the words 0 .. n-1 of the block in their order store them and change nothing else. -/
theorem runFused_writes_m (f : Nat → Word) (hb : s.busy = false) {n : Nat} (hn : n ≤ 16) :
    runFused ((List.range n).map fun i => writeOp (.m i) (f i)) s = some { s with m := storeWords f n s.m } := by
  induction n with
  | zero => rw [storeWords_zero]; rfl
  | succ n ih =>
    rw [List.range_succ, List.map_append, runFused_append, ih (by omega), storeWords_succ f hn]
    exact runFused_writeOp_m hn (f n) hb

/-- Block byte j lies in word j / 8 (10_state.md R23). -/
theorem blockByte_storeWords (f : Nat → Word) (n : Nat) (m : Vector Word 16) (j : Fin 128) :
    blockByte (storeWords f n m) j = if j.val / 8 < n then byteOf (f (j.val / 8)) (j.val % 8) else blockByte m j := by
  rw [blockByte, storeWords_get]
  split <;> rfl

/-- Byte k of the i-th group of eight bytes, a missing byte counting as 0 (30_encoding.md R88). -/
theorem byteOf_le64_group (bytes : List Byte) (i k : Nat) (hk : k < 8) :
    byteOf (le64 ((bytes.drop (8 * i)).take 8)) k = bytes.getD (8 * i + k) 0 := by
  rw [byteOf_le64 _ k hk]
  simp [List.getD_eq_getElem?_getD, hk]

/-- Settles O51: LDBLK writes the groups of eight bytes to the words 0 .. ceil(n/8) - 1. -/
theorem loadBlockPutsTheBytesInPlace : Obligations.LoadBlockPutsTheBytesInPlace := by
  unfold Obligations.LoadBlockPutsTheBytesInPlace
  intro bytes s hlen hb
  refine ⟨_, runFused_writes_m _ hb (by omega), rfl, fun j => ?_⟩
  have hword : j.val / 8 < (bytes.length + 7) / 8 ↔ j.val < (bytes.length + 7) / 8 * 8 := by omega
  rw [blockByte_storeWords, byteOf_le64_group _ _ _ (by omega), Nat.div_add_mod]
  simp only [hword]

end Sys2Proof.Machine
end

section
/-! PROOFS. The state_mixer: its primitives, G as a bijection, and G in place (O32 to O36). -/

namespace Sys2Proof.Machine

/-- An addition of two words wraps (40_state_mixer.md R100). -/
theorem add64_toNat (a b : Word) : (add64 a b).toNat = (a.toNat + b.toNat) % 2 ^ 64 := BitVec.toNat_add a b

/-- An addition of three words wraps as one (40_state_mixer.md R101). -/
theorem add3_toNat (a b x : Word) : (add3 a b x).toNat = (a.toNat + b.toNat + x.toNat) % 2 ^ 64 := by
  rw [add3, add64_toNat, add64_toNat, Nat.mod_add_mod]

theorem xor64_getLsbD (a b : Word) (k : Nat) : (xor64 a b).getLsbD k = (a.getLsbD k ^^ b.getLsbD k) :=
  BitVec.getLsbD_xor

/-- XOR64 with one word undoes itself. -/
theorem xor64_xor64 (a b : Word) : xor64 (xor64 a b) b = a := by
  rw [xor64, xor64, BitVec.xor_assoc, BitVec.xor_self, BitVec.xor_zero]

/-- Settles O32, one primitive after the other. -/
theorem arxPrimitivesAsStated : Obligations.ArxPrimitivesAsStated :=
  fun a b x => ⟨add64_toNat a b, add3_toNat a b x, fun k _ => xor64_getLsbD a b k⟩

section Rotations

variable {n : Nat}

/-- ROTR64 is the rotation of the library. -/
theorem rotr64_eq_rotateRight (hn : n < 64) (x : Word) : rotr64 x n = x.rotateRight n := by
  rw [BitVec.rotateRight_def, Nat.mod_eq_of_lt hn, rotr64]

/-- A right rotation puts the n low bits of x above its other bits: `{x[n-1:0], x[63:n]}` (40_state_mixer.md R103). -/
theorem rotr64_toNat (hn : n < 64) (x : Word) :
    (rotr64 x n).toNat = x.toNat % 2 ^ n * 2 ^ (64 - n) + x.toNat / 2 ^ n := by
  have hpow : 2 ^ 64 = 2 ^ n * 2 ^ (64 - n) := by rw [← Nat.pow_add, Nat.add_sub_cancel' (Nat.le_of_lt hn)]
  have hlow : x.toNat <<< (64 - n) % 2 ^ 64 = (x.toNat % 2 ^ n) <<< (64 - n) := by
    rw [Nat.shiftLeft_eq, Nat.shiftLeft_eq, hpow, Nat.mul_mod_mul_right]
  have hhigh : x.toNat / 2 ^ n < 2 ^ (64 - n) := Nat.div_lt_of_lt_mul (hpow ▸ x.isLt)
  rw [rotr64, BitVec.toNat_or, BitVec.toNat_ushiftRight, BitVec.toNat_shiftLeft, hlow, Nat.shiftRight_eq_div_pow,
    Nat.or_comm, ← Nat.shiftLeft_add_eq_or_of_lt hhigh, Nat.shiftLeft_eq]

/-- Bit k of a right rotation by n is bit k + n of x, counted cyclically. -/
theorem rotr64_getLsbD (hn : n < 64) (x : Word) {k : Nat} (hk : k < 64) :
    (rotr64 x n).getLsbD k = x.getLsbD ((k + n) % 64) := by
  rw [rotr64_eq_rotateRight hn, BitVec.getLsbD_rotateRight_of_lt hn]
  by_cases h : k < 64 - n
  · rw [decide_eq_true h, cond_true, Nat.mod_eq_of_lt (by omega), Nat.add_comm]
  · rw [decide_eq_false h, cond_false, decide_eq_true hk, Bool.true_and, show k - (64 - n) = (k + n) % 64 by omega]

/-- Rotations by amounts of the sum 64 move every bit back to its place. -/
theorem rotr64_leftInverse {m : Nat} (hm : m < 64) (hn : n < 64) (hmn : m + n = 64) :
    Function.LeftInverse (rotr64 · m) (rotr64 · n) := by
  intro x
  apply BitVec.eq_of_getLsbD_eq
  intro k hk
  rw [rotr64_getLsbD hm _ hk, rotr64_getLsbD hn _ (Nat.mod_lt _ (by decide)),
    show ((k + m) % 64 + n) % 64 = k by omega]

end Rotations

/-- Settles O33: all four are rotations by n, which swap the two parts of x, and 32 is half of 64. -/
theorem rotationsSwapTheirParts : Obligations.RotationsSwapTheirParts := by
  unfold Obligations.RotationsSwapTheirParts
  intro x
  have hlt : ∀ n ∈ [32, 24, 16, 63], n < 64 := by decide
  exact ⟨rotr64_toNat (by decide) x, rotr64_toNat (by decide) x, rotr64_toNat (by decide) x,
    rotr64_toNat (by decide) x, rotr64_leftInverse (by decide) (by decide) rfl x,
    fun n hn k hk => rotr64_getLsbD (hlt n hn) x hk⟩

/-- Settles O34: the two halves one after the other, each rotation being the library's. -/
theorem gIsItsEightStatements : Obligations.GIsItsEightStatements := by
  unfold Obligations.GIsItsEightStatements
  intro a b c d x y
  simp (disch := decide) only [mixG, mixHalf, add3, add64, xor64, rotr32, rotr24, rotr16, rotr63,
    rotr64_eq_rotateRight]

/-- The words that half a G takes to `w`, with the inverses of its two rotations: its four statements undone, the last
one first. -/
def unmixHalf (unrotD unrotB : Word → Word) (z : Word) (w : Mixed) : Mixed :=
  let b := xor64 (unrotB w.b) w.c
  let c := w.c - w.d
  let d := xor64 (unrotD w.d) w.a
  let a := w.a - z - b
  ⟨a, b, c, d⟩

section Half

variable {rotD rotB unrotD unrotB : Word → Word}

theorem unmixHalf_mixHalf (hD : Function.LeftInverse unrotD rotD) (hB : Function.LeftInverse unrotB rotB) (z : Word) :
    Function.LeftInverse (unmixHalf unrotD unrotB z) (mixHalf rotD rotB z) := by
  rintro ⟨a, b, c, d⟩
  simp only [unmixHalf, mixHalf, hD _, hB _, xor64_xor64, add3, add64, BitVec.add_sub_cancel]

theorem mixHalf_unmixHalf (hD : Function.RightInverse unrotD rotD) (hB : Function.RightInverse unrotB rotB) (z : Word) :
    Function.RightInverse (unmixHalf unrotD unrotB z) (mixHalf rotD rotB z) := by
  rintro ⟨a, b, c, d⟩
  simp only [unmixHalf, mixHalf, add3, add64, xor64_xor64, hD _, hB _, BitVec.sub_add_cancel]

end Half

/-- The words that G takes to `w`: its halves undone, the second one first, each rotation by n undone by one by
64 - n. -/
def unmixG (w : Mixed) (x y : Word) : Mixed :=
  unmixHalf (rotr64 · 32) (rotr64 · 40) x (unmixHalf (rotr64 · 48) (rotr64 · 1) y w)

theorem unmixG_mixG (w : Mixed) (x y : Word) : unmixG (mixG w x y) x y = w := by
  have hfirst := unmixHalf_mixHalf (rotr64_leftInverse (m := 32) (n := 32) (by decide) (by decide) rfl)
    (rotr64_leftInverse (m := 40) (n := 24) (by decide) (by decide) rfl) x
  have hsecond := unmixHalf_mixHalf (rotr64_leftInverse (m := 48) (n := 16) (by decide) (by decide) rfl)
    (rotr64_leftInverse (m := 1) (n := 63) (by decide) (by decide) rfl) y
  exact (congrArg _ (hsecond _)).trans (hfirst w)

theorem mixG_unmixG (w : Mixed) (x y : Word) : mixG (unmixG w x y) x y = w := by
  have hfirst := mixHalf_unmixHalf (rotr64_leftInverse (m := 32) (n := 32) (by decide) (by decide) rfl)
    (rotr64_leftInverse (m := 24) (n := 40) (by decide) (by decide) rfl) x
  have hsecond := mixHalf_unmixHalf (rotr64_leftInverse (m := 16) (n := 48) (by decide) (by decide) rfl)
    (rotr64_leftInverse (m := 63) (n := 1) (by decide) (by decide) rfl) y
  exact (congrArg _ (hfirst _)).trans (hsecond w)

/-- Settles O35: G has an inverse on the four words, for fixed message words (40_state_mixer.md R108). -/
theorem gIsABijection : Obligations.GIsABijection := by
  unfold Obligations.GIsABijection
  intro x y
  refine ⟨fun w w' h => ?_, fun r => ⟨unmixG r x y, mixG_unmixG r x y⟩⟩
  rw [← unmixG_mixG w x y, h, unmixG_mixG]

/-- The four positions of a quadruple are different ones. -/
def Quad.Distinct (q : Quad) : Prop :=
  q.ia ≠ q.ib ∧ q.ia ≠ q.ic ∧ q.ia ≠ q.id ∧ q.ib ≠ q.ic ∧ q.ib ≠ q.id ∧ q.ic ≠ q.id

/-- No quadruple of the eight mixes has a position twice (41_compression.md R127). -/
theorem quads_distinct (j : Fin 8) : (quads.get j).Distinct := by
  unfold Quad.Distinct
  revert j
  decide

/-- A word of V after a write to one position. -/
theorem vector_get_set (v : Vector Word 16) (i k : Fin 16) (x : Word) :
    (v.set i x).get k = if k = i then x else v.get k := by
  have hik : k = i ↔ i.val = k.val := Fin.ext_iff.trans eq_comm
  simp only [hik]
  exact Vector.getElem_set i.isLt k.isLt

/-- A write to a quadruple of distinct positions puts one word at each, whatever the order, and keeps the others. -/
theorem Quad.write_get {q : Quad} (hq : q.Distinct) (r : Mixed) (v : Vector Word 16) (k : Fin 16) :
    (q.write r v).get k =
      if k = q.ia then r.a else if k = q.ib then r.b else if k = q.ic then r.c else if k = q.id then r.d
      else v.get k := by
  obtain ⟨hab, hac, had, hbc, hbd, hcd⟩ := hq
  simp only [Quad.write, vector_get_set]
  by_cases ha : k = q.ia
  · simp [ha, hab, hac, had]
  by_cases hb : k = q.ib
  · simp [hb, hab.symm, hbc, hbd]
  by_cases hc : k = q.ic
  · simp [hc, hac.symm, hbc.symm, hcd]
  · simp [ha, hb, hc]

/-- Settles O36: the positions of each quadruple are distinct, so its four writes do not overwrite each other. -/
theorem gInPlaceTouchesOnlyItsPositions : Obligations.GInPlaceTouchesOnlyItsPositions := by
  unfold Obligations.GInPlaceTouchesOnlyItsPositions
  intro j x y v
  obtain ⟨hab, hac, had, hbc, hbd, hcd⟩ := quads_distinct j
  exact ⟨hab, hac, had, hbc, hbd, hcd, Quad.write_get (quads_distinct j) _ v⟩

end Sys2Proof.Machine
end

section
/-! PROOFS. The constant tables, and the mixes of one group in either order (O37 to O39). -/

namespace Sys2Proof.Machine

/-- Settles O37: eight comparisons of numbers, one for each prime. -/
theorem ivIsTheFractionOfSquareRoots : Obligations.IvIsTheFractionOfSquareRoots := by
  unfold Obligations.IvIsTheFractionOfSquareRoots
  decide

theorem sigma_row_has_every_index : ∀ (row : Fin 10) (w : Fin 16), ∃ k : Fin 16, (sigma.get row).get k = w := by
  decide

/-- The row of round r is row r mod 10 of SIGMA (41_compression.md R122). -/
theorem sigmaRow_eq_get (r : Nat) : sigmaRow r = sigma.get ⟨r % 10, Nat.mod_lt _ (by decide)⟩ := rfl

/-- Settles O38: the tables are closed, and the round number enters by its remainder modulo 10. -/
theorem roundTablesAsStated : Obligations.RoundTablesAsStated := by
  unfold Obligations.RoundTablesAsStated
  refine ⟨sigma_row_has_every_index, fun r hr => ⟨⟨r, hr⟩, rfl, ?_⟩, sigmaRow_eq_get 10, sigmaRow_eq_get 11, by decide⟩
  simp only [sigmaRow_eq_get, Nat.mod_eq_of_lt hr]

/-- The positions of V that a quadruple reads and writes. -/
def Quad.positions (q : Quad) : List (Fin 16) := [q.ia, q.ib, q.ic, q.id]

/-- Two columns, or two diagonals, have no position in common (41_compression.md R127). -/
theorem quads_disjoint : ∀ j k : Fin 8, j ≠ k → (j.val < 4 ↔ k.val < 4) →
    ∀ p ∈ (quads.get j).positions, p ∉ (quads.get k).positions := by
  decide

variable {q q' : Quad}

/-- A write to a quadruple keeps the words at other positions. -/
theorem Quad.write_get_of_notMem {p : Fin 16} (hp : p ∉ q.positions) (r : Mixed) (v : Vector Word 16) :
    (q.write r v).get p = v.get p := by
  simp only [Quad.positions, List.mem_cons, List.not_mem_nil, or_false, not_or] at hp
  obtain ⟨ha, hb, hc, hd⟩ := hp
  simp only [Quad.write, vector_get_set, if_neg ha, if_neg hb, if_neg hc, if_neg hd]

/-- At its own positions a write to a quadruple leaves words that do not depend on what was there. -/
theorem Quad.write_get_of_mem {p : Fin 16} (hp : p ∈ q.positions) (r : Mixed) (v v' : Vector Word 16) :
    (q.write r v).get p = (q.write r v').get p := by
  simp only [Quad.positions, List.mem_cons, List.not_mem_nil, or_false] at hp
  simp only [Quad.write, vector_get_set]
  rcases hp with rfl | rfl | rfl | rfl <;> simp only [if_true]

theorem vector_ext_get {v v' : Vector Word 16} (h : ∀ p, v.get p = v'.get p) : v = v' :=
  Vector.ext fun i hi => h ⟨i, hi⟩

section Disjoint

variable (hdisj : ∀ p ∈ q.positions, p ∉ q'.positions)
include hdisj

/-- A quadruple reads past the write to another one. -/
theorem Quad.read_write_of_disjoint (r : Mixed) (v : Vector Word 16) : q.read (q'.write r v) = q.read v := by
  simp only [Quad.positions, List.forall_mem_cons] at hdisj
  obtain ⟨ha, hb, hc, hd, -⟩ := hdisj
  simp only [Quad.read, Quad.write_get_of_notMem ha, Quad.write_get_of_notMem hb, Quad.write_get_of_notMem hc,
    Quad.write_get_of_notMem hd]

/-- Writes to two quadruples without a common position can be done in either order. -/
theorem Quad.write_comm_of_disjoint (r r' : Mixed) (v : Vector Word 16) :
    q.write r (q'.write r' v) = q'.write r' (q.write r v) := by
  apply vector_ext_get
  intro p
  by_cases hp : p ∈ q.positions
  · rw [Quad.write_get_of_notMem (hdisj p hp)]
    exact Quad.write_get_of_mem hp r _ _
  · rw [Quad.write_get_of_notMem hp]
    by_cases hp' : p ∈ q'.positions
    · exact Quad.write_get_of_mem hp' r' _ _
    · rw [Quad.write_get_of_notMem hp', Quad.write_get_of_notMem hp', Quad.write_get_of_notMem hp]

end Disjoint

/-- Settles O39: neither of two disjoint quadruples reads or overwrites what the other writes. -/
theorem mixesOfOneGroupCommute : Obligations.MixesOfOneGroupCommute := by
  unfold Obligations.MixesOfOneGroupCommute
  intro j k x y x' y' v hne hgroup
  have hjk := quads_disjoint j k hne hgroup
  have hkj := quads_disjoint k j hne.symm hgroup.symm
  simp only [mixAt, Quad.read_write_of_disjoint hjk, Quad.read_write_of_disjoint hkj]
  exact Quad.write_comm_of_disjoint hjk _ _ v

end Sys2Proof.Machine
end

section
/-! PROOFS. The engine's steps one by one make F, however host moves come between them (O40 to O45). -/

namespace Sys2Proof.Machine

variable {s t : State}

/-- Settles O40, by the three things an engine step can do. -/
theorem engineStepMixesOrFinalizes : Obligations.EngineStepMixesOrFinalizes := by
  unfold Obligations.EngineStepMixesOrFinalizes
  intro s
  rcases engineStep_cases s with ⟨hr, hg, h⟩ | ⟨hr, hg, h⟩ | ⟨h12, h⟩
  · refine ⟨fun _ => ?_, fun h12 => absurd hr (by rw [h12]; decide)⟩
    rw [h, if_pos hg, if_pos hg]
    rfl
  · refine ⟨fun _ => ?_, fun h12 => absurd hr (by rw [h12]; decide)⟩
    rw [h, if_neg hg, if_neg hg]
    rfl
  · exact ⟨fun hr => absurd hr (by rw [h12]; decide), fun _ => h⟩

/-! ### The order of the mixes -/

variable (m : Vector Word 16) (v : Vector Word 16)

/-- After j mixes of round r comes mix j of round r (41_compression.md R127, R129). -/
theorem mixes_succ_position (r : Nat) {j : Nat} (hj : j < 8) :
    mixes m (8 * r + j + 1) v = roundMix m r ⟨j, hj⟩ (mixes m (8 * r + j) v) := by
  have hdiv : (8 * r + j) / 8 = r := by omega
  have hmod : (8 * r + j) % 8 = j := by omega
  simp only [mixes, hdiv, hmod]

/-- The first j mixes of round r, after the rounds before it. -/
theorem mixes_in_round (r : Nat) {j : Nat} (hj : j ≤ 8) :
    mixes m (8 * r + j) v = ((List.finRange 8).take j).foldl (fun v k => roundMix m r k v) (mixes m (8 * r) v) := by
  induction j with
  | zero => rfl
  | succ j ih =>
    have hlen : j < (List.finRange 8).length := hj
    rw [List.take_succ_eq_append_getElem hlen, List.foldl_append, ← ih (Nat.le_of_lt hj), List.foldl_cons,
      List.foldl_nil, List.getElem_finRange]
    exact mixes_succ_position m v r hj

/-- Eight mixes are a round (41_compression.md R127). -/
theorem mixes_eight_mul (n : Nat) : mixes m (8 * n) v = (List.range n).foldl (fun v r => roundF m r v) v := by
  induction n with
  | zero => rfl
  | succ n ih =>
    rw [List.range_succ, List.foldl_append, ← ih, List.foldl_cons, List.foldl_nil]
    exact mixes_in_round m v n (Nat.le_refl 8)

/-- F is the feed forward of the seeded V after its 96 mixes (41_compression.md R129 to R131). -/
theorem compressF_eq_feedForward_mixes (h : Vector Word 8) (c : Count) (last : Bool) :
    compressF h m c last = feedForward h (mixes m 96 (seedV h c last)) := by
  rw [compressF, ← mixes_eight_mul]

/-! ### What an engine step does to the number of mixes done -/

/-- The engine's next step is a mix until 96 of them are done, and then the finalize step (41_compression.md R140). -/
theorem mixesDone_lt_or_rnd (s : State) : s.mixesDone < 96 ∨ s.rnd = 12 := by
  rcases engineStep_cases s with ⟨hr, -⟩ | ⟨hr, -⟩ | ⟨h12, -⟩
  · exact .inl (by unfold State.mixesDone; omega)
  · exact .inl (by unfold State.mixesDone; omega)
  · exact .inr h12

/-- No mix belongs to round 12, so 96 are done there. -/
theorem mixesDone_of_rnd (hseq : s.Sequenced) (h12 : s.rnd = 12) : s.mixesDone = 96 := by
  obtain ⟨-, hround, -⟩ := hseq
  rw [State.mixesDone, h12, hround h12]
  rfl

/-- The next mix of the machine is the next one of F. -/
theorem roundMix_mixesDone (s : State) :
    roundMix m s.rnd.val s.gix (mixes m s.mixesDone v) = mixes m (s.mixesDone + 1) v :=
  (mixes_succ_position m v s.rnd.val s.gix.isLt).symm

/-- While mixes are left, an engine step is the next one and moves the sequencing position on by one. -/
theorem engineStep_mix (h : s.mixesDone < 96) :
    ∃ r g, 8 * r.val + g.val = s.mixesDone + 1 ∧
      engineStep s = { s with v := roundMix s.m s.rnd.val s.gix s.v, rnd := r, gix := g } := by
  rcases engineStep_cases s with ⟨_, hg, heng⟩ | ⟨_, hg, heng⟩ | ⟨h12, -⟩
  · exact ⟨_, _, by rw [State.mixesDone, hg]; rfl, heng⟩
  · refine ⟨_, _, ?_, heng⟩
    have hne : s.gix.val ≠ 7 := fun h7 => hg (Fin.ext h7)
    have hlt : (s.gix + 1).val = s.gix.val + 1 :=
      (Fin.val_add _ _).trans (Nat.mod_eq_of_lt (show s.gix.val + 1 < 8 by omega))
    rw [State.mixesDone, hlt]
    rfl
  · rw [State.mixesDone, h12] at h
    exact absurd h (Nat.not_lt.mpr (Nat.le_add_right _ _))

/-- In round 12 an engine step is the finalize step (41_compression.md R142). -/
theorem engineStep_finalize (h12 : s.rnd = 12) : engineStep s = finalize s :=
  dif_neg (by rw [h12]; decide)

/-- An engine step keeps V on the way of F. -/
theorem tracksF_engineStep (hb : s.busy = true) (ht : s.TracksF) : (engineStep s).TracksF := by
  rcases mixesDone_lt_or_rnd s with hmix | h12
  · obtain ⟨r, g, hpos, heng⟩ := engineStep_mix hmix
    rw [heng]
    intro _
    simp only [State.mixesDone, hpos, ht hb]
    exact roundMix_mixesDone _ _ s
  · rw [engineStep_finalize h12]
    exact nofun

/-- An accepted NEXT starts V on the way of F: no mix is done. -/
theorem tracksF_nextState (s : State) : (nextState s).TracksF := fun _ => rfl

/-- Settles O42: by cases on what a step can do. Only an engine step changes anything in the invariant while BUSY = 1,
and only NEXT sets BUSY. -/
theorem engineTracksFUnderEverySchedule : Obligations.EngineTracksFUnderEverySchedule := by
  unfold Obligations.EngineTracksFUnderEverySchedule
  intro s t _ ht h
  rcases step_effects h with ⟨-, rfl⟩ | ⟨hm, rfl⟩ | ⟨-, q, r, sc, e, rfl⟩ | ⟨-, q, sc, hb, hw⟩ | ⟨-, q, sc, rfl⟩
  · exact ht
  · have hb := mover_engine hm
    rw [drawn_eq]
    exact tracksF_engineStep hb ht
  · exact ht
  · have hfree : s.busy ≠ true := by simp [hb]
    rcases hw with ⟨d, -, rfl⟩ | ⟨d, -, rfl⟩ | ⟨k, d, -, rfl⟩ | ⟨-, rfl⟩ | ⟨-, rfl⟩ | ⟨-, rfl⟩
    · exact ht
    · exact ht
    · exact fun hb' => absurd hb' hfree
    · exact fun hb' => absurd hb' hfree
    · exact tracksF_nextState _
    · exact nofun
  · exact nofun

/-! ### While BUSY = 1 -/

/-- What a step can do while BUSY = 1: an engine step, a host move that changes at most ERRCODE and the host's side, or a
reset (60_exceptions.md R224). -/
theorem step_busy_cases (hb : s.busy = true) (h : step s = .next t) :
    (s.mover = some .engine ∧ t = engineStep s.drawn) ∨
    (s.mover = some .host ∧ ∃ q r sc e, t = { s with queue := q, replies := r, sched := sc, errcode := e }) ∨
    s.PresentsReset := by
  rcases step_effects h with ⟨hm, -⟩ | heng | ⟨hm, q, r, sc, e, ht⟩ | ⟨-, q, sc, hfree, -⟩ | ⟨hr, -⟩
  · obtain ⟨hfree, -⟩ := mover_none.mp hm
    simp [hb] at hfree
  · exact .inl heng
  · exact .inr (.inl ⟨hm, q, r, sc, _, ht⟩)
  · simp [hb] at hfree
  · exact .inr (.inr hr)

/-- Settles O44: the host's moves are `step_busy_cases` without the engine's. -/
theorem hostCannotDisturbACompression : Obligations.HostCannotDisturbACompression := by
  unfold Obligations.HostCannotDisturbACompression
  intro s t hb hm hnr h
  rcases step_busy_cases hb h with ⟨hm', -⟩ | ⟨-, q, r, sc, e, rfl⟩ | hr
  · simp [hm] at hm'
  · rfl
  · exact absurd hr hnr

/-- The engine step that ends a compression leaves F in H (41_compression.md R131, R142). -/
theorem engineStep_ends (hb : s.busy = true) (hseq : s.Sequenced) (ht : s.TracksF)
    (hend : (engineStep s).busy = false) :
    (engineStep s).h = compressF s.h s.m s.t s.lastf ∧
      (engineStep s).phase = (if s.lastf then .done else .active) := by
  rcases mixesDone_lt_or_rnd s with hmix | h12
  · obtain ⟨r, g, -, heng⟩ := engineStep_mix hmix
    simp [heng, hb] at hend
  · rw [engineStep_finalize h12, compressF_eq_feedForward_mixes, ← mixesDone_of_rnd hseq h12, ← ht hb]
    exact ⟨rfl, rfl⟩

/-- Settles O43: only the engine's finalize step ends a compression, and the invariant says what V is then. -/
theorem compressionResultIsFUnderEverySchedule : Obligations.CompressionResultIsFUnderEverySchedule := by
  unfold Obligations.CompressionResultIsFUnderEverySchedule
  intro s t hseq ht h hb hend hnr
  rcases step_busy_cases hb h with ⟨-, rfl⟩ | ⟨-, q, r, sc, e, rfl⟩ | hr
  · rw [drawn_eq] at hend ⊢
    exact engineStep_ends hb hseq ht hend
  · simp [hb] at hend
  · exact absurd hr hnr

/-- An engine step takes one off the steps left (41_compression.md R141). -/
theorem stepsLeft_engineStep (hb : s.busy = true) (hseq : s.Sequenced) :
    (engineStep s).stepsLeft + 1 = s.stepsLeft := by
  rcases mixesDone_lt_or_rnd s with hmix | h12
  · obtain ⟨r, g, hpos, heng⟩ := engineStep_mix hmix
    rw [heng, State.stepsLeft, State.stepsLeft, if_pos hb, if_pos hb]
    change 97 - (8 * r.val + g.val) + 1 = 97 - s.mixesDone
    omega
  · rw [engineStep_finalize h12, State.stepsLeft, State.stepsLeft, if_pos hb, mixesDone_of_rnd hseq h12]
    rfl

/-- What an accepted NEXT leaves, from its meaning. -/
theorem eq_nextState (hb : s.busy = false) (hp : s.phase = .active) (h : exec .cmdNext s = .next t) :
    t = nextState s := by
  obtain ⟨-, hnext, -⟩ := exec_commands hb
  rw [hnext, if_pos hp] at h
  exact (Host_next_inj h).symm

/-- Settles O45: NEXT starts at position (0, 0), and only engine steps move the position on. -/
theorem eachNextTakesNinetySevenEngineSteps : Obligations.EachNextTakesNinetySevenEngineSteps := by
  unfold Obligations.EachNextTakesNinetySevenEngineSteps
  refine ⟨fun s t hb hp h => ?_, fun s t hseq hb h => ⟨fun hm => ?_, fun hm hnr => ?_⟩⟩
  · rw [eq_nextState hb hp h]
    rfl
  · obtain rfl : engineStep s.drawn = t := by
      rw [step_engine hm] at h
      exact Host_next_inj h
    rw [drawn_eq]
    exact stepsLeft_engineStep hb hseq
  · rw [hostCannotDisturbACompression s t hb hm hnr h]
    rfl

/-! ### The engine alone -/

/-- As long as no more than 96 mixes are done, k engine steps are the next k mixes. -/
theorem engineRun_mixes (hstart : s.mixesDone = 0) {k : Nat} (hk : k ≤ 96) :
    ∃ r g, 8 * r.val + g.val = k ∧ engineRun k s = { s with v := mixes s.m k s.v, rnd := r, gix := g } := by
  induction k with
  | zero => exact ⟨s.rnd, s.gix, hstart, rfl⟩
  | succ k ih =>
    obtain ⟨r, g, hpos, hrun⟩ := ih (Nat.le_of_lt hk)
    have hdone : (engineRun k s).mixesDone = k := by rw [hrun]; exact hpos
    obtain ⟨r', g', hpos', hstep⟩ := engineStep_mix (s := engineRun k s) (by omega)
    refine ⟨r', g', by rw [hpos', hdone], ?_⟩
    have hmix := roundMix_mixesDone s.m s.v (engineRun k s)
    rw [hdone] at hmix
    rw [engineRun_succ, hstep, ← hmix, hrun]

/-- Settles O41: 96 engine steps are the 96 mixes of F, and the last one is the finalize step. -/
theorem ninetySevenEngineStepsComputeF : Obligations.NinetySevenEngineStepsComputeF := by
  unfold Obligations.NinetySevenEngineStepsComputeF
  intro s t hb hp h
  obtain rfl := eq_nextState hb hp h
  constructor
  · obtain ⟨r, g, hpos, hrun⟩ := engineRun_mixes (s := nextState s) rfl (Nat.le_refl 96)
    have h12 : (engineRun 96 (nextState s)).rnd = 12 := by
      rw [hrun]
      exact Fin.ext (show r.val = 12 by omega)
    rw [engineRun_succ, engineStep_finalize h12, hrun, compressF_eq_feedForward_mixes]
    rfl
  · intro k hk
    obtain ⟨r, g, -, hrun⟩ := engineRun_mixes (s := nextState s) rfl (Nat.le_of_lt_succ hk)
    rw [hrun]
    rfl

end Sys2Proof.Machine
end

section
/-! PROOFS. The block a NEXT takes: its place in the stream, its padding and its compression (O48 to O50). -/

namespace Sys2Proof.Machine

variable {s : State}

@[simp] theorem nextState_m (s : State) :
    (nextState s).m = padBlock (padFrom s.keypend s.kl (blockCount s.remain)) s.m := rfl
@[simp] theorem nextState_t (s : State) : (nextState s).t = s.t + (blockCount s.remain).setWidth 128 := rfl
@[simp] theorem nextState_remain (s : State) :
    (nextState s).remain = s.remain - (blockCount s.remain).setWidth 128 := rfl

/-! ### Padding -/

/-- Padding makes the block bytes from its position on 0 and leaves the others (42_message_assembler.md R157, R158). -/
theorem blockByte_padBlock (start : Nat) (m : Vector Word 16) (j : Fin 128) :
    blockByte (padBlock start m) j = if start ≤ j.val then 0 else blockByte m j := by
  have hk : j.val % 8 < 8 := Nat.mod_lt _ (by decide)
  have hget : (padBlock start m).get ⟨j.val / 8, by omega⟩ =
      keepBelow start (j.val / 8) (m.get ⟨j.val / 8, by omega⟩) := Vector.getElem_ofFn _
  rw [blockByte, hget, byteOf_keepBelow _ _ _ _ hk, Nat.div_add_mod]
  by_cases h : start ≤ j.val
  · rw [if_pos h, if_neg (Nat.not_lt.mpr h)]
  · rw [if_neg h, if_pos (Nat.not_le.mp h), blockByte]

/-- A full block has no bytes to pad (42_message_assembler.md R161). -/
theorem padBlock_full (m : Vector Word 16) : padBlock 128 m = m :=
  vector_ext_get fun i => (Vector.getElem_ofFn _).trans (keepBelow_of_le 128 i.val _ (by omega))

/-! ### The number of blocks -/

/-- Up to 128 bytes are one block, no bytes included. -/
theorem blocksLeft_eq_one_iff (n : Nat) : blocksLeft n = 1 ↔ n ≤ 128 := by
  unfold blocksLeft
  omega

/-- A full block that is not the last takes one off the blocks left. -/
theorem blocksLeft_sub_full {n : Nat} (h : 128 < n) : blocksLeft (n - 128) + 1 = blocksLeft n := by
  unfold blocksLeft
  omega

/-- A block that is not the last counts 128 bytes (42_message_assembler.md R156). -/
theorem blockCount_of_not_last {r : Count} (h : isLast r = false) : blockCount r = 128 :=
  if_neg (Bool.eq_false_iff.mp h)

/-- The step of an accepted INIT. -/
theorem step_acceptsInit (h : s.AcceptsInit) : ∃ rest, step s = .next (initState { s with queue := rest }) := by
  obtain ⟨⟨hm, w, rest, hq, hd⟩, hb, hlegal⟩ := h
  obtain ⟨hinit, -⟩ := exec_commands (s := { s with queue := rest }) hb
  refine ⟨rest, ?_⟩
  rw [step_host hm hq, drawn_free hb, hostMove, transact_instr hd, hinit, if_pos hlegal]

/-- Settles O48: INIT puts the combined length into REMAIN, and a NEXT takes 128 bytes of it as long as more remain. -/
theorem streamTakesItsNumberOfBlocks : Obligations.StreamTakesItsNumberOfBlocks := by
  unfold Obligations.StreamTakesItsNumberOfBlocks
  refine ⟨fun s t hacc h => ?_, fun s t hb hp h => ?_⟩
  · obtain ⟨rest, hstep⟩ := step_acceptsInit hacc
    obtain rfl := Host_next_inj (hstep.symm.trans h)
    exact combinedLength_toNat _ _
  · obtain rfl := eq_nextState hb hp h
    rw [nextState_lastf]
    refine ⟨(isLast_iff _).trans (blocksLeft_eq_one_iff _).symm, fun hnot => ⟨?_, ?_⟩⟩
    · have hmore := (isLast_eq_false_iff _).mp hnot
      rw [nextState_remain_toNat, Nat.min_eq_left (Nat.le_of_lt hmore)]
      exact blocksLeft_sub_full hmore
    · rw [nextState_t, blockCount_of_not_last hnot]
      rfl

/-! ### Last blocks -/

/-- An accepted NEXT is `nextState`. -/
theorem exec_cmdNext (hb : s.busy = false) (hp : s.phase = .active) : exec .cmdNext s = .next (nextState s) := by
  obtain ⟨-, hnext, -⟩ := exec_commands hb
  rw [hnext, if_pos hp]

/-- The 97 engine steps of a last block end in DONE with no key block pending (41_compression.md R142). -/
theorem engineRun_last_done (hb : s.busy = false) (hp : s.phase = .active) (hlast : isLast s.remain = true) :
    (engineRun 97 (nextState s)).phase = .done ∧ (engineRun 97 (nextState s)).keypend = false := by
  obtain ⟨hrun, -⟩ := ninetySevenEngineStepsComputeF s _ hb hp (exec_cmdNext hb hp)
  rw [hrun]
  exact ⟨if_pos hlast, rfl⟩

/-- An INIT with KEYLEN = 0 and MSGLEN = 0 leaves REMAIN = 0 and no key block (42_message_assembler.md R150). -/
theorem initState_empty (hk : keyLen s.config = 0) (hm : s.msglen = 0) :
    (initState s).remain = 0 ∧ (initState s).keypend = false := by
  rw [initState_remain, initState_keypend, hk, hm]
  decide

/-- With nothing remaining and no key block, NEXT counts no byte and zeroes the whole block
(42_message_assembler.md R160). -/
theorem nextState_empty (hr : s.remain = 0) (hk : s.keypend = false) :
    (nextState s).t = s.t ∧ (nextState s).remain = 0 ∧ ∀ j : Fin 128, blockByte (nextState s).m j = 0 := by
  have hcount : blockCount s.remain = 0 := by rw [hr]; decide
  refine ⟨?_, ?_, fun j => ?_⟩
  · rw [nextState_t, hcount]
    exact BitVec.add_zero s.t
  · rw [nextState_remain, hcount, hr]
    rfl
  · rw [nextState_m, hcount, hk, blockByte_padBlock]
    exact if_pos (Nat.zero_le j.val)

/-- Settles O49: REMAIN = 0 after INIT, so the one NEXT is a last block and takes no bytes. -/
theorem emptyUnkeyedMessageIsOneZeroBlock : Obligations.EmptyUnkeyedMessageIsOneZeroBlock := by
  unfold Obligations.EmptyUnkeyedMessageIsOneZeroBlock
  intro s hb hk hpos hle hm
  obtain ⟨hinit, -⟩ := exec_commands hb
  have hlegal := (legalConfig_iff (keyLen s.config) (hashLen s.config)).mpr ⟨by rw [hk]; decide, hpos, hle⟩
  rw [if_pos hlegal] at hinit
  obtain ⟨hr, hkp⟩ := initState_empty hk hm
  obtain ⟨ht, hr', hzero⟩ := nextState_empty hr hkp
  have hlast : isLast (initState s).remain = true := by rw [hr]; decide
  obtain ⟨hdone, -⟩ := engineRun_last_done (s := initState s) hb rfl hlast
  exact ⟨_, _, hinit, exec_cmdNext hb rfl, rfl, hlast, ht, hr', hzero, hdone⟩

/-- Settles O50: REMAIN = 128 is a last block of 128 bytes, so only the key block, padded from KL on, has bytes to pad. -/
theorem fullFinalBlocks : Obligations.FullFinalBlocks := by
  unfold Obligations.FullFinalBlocks
  intro s hb hp hr
  have hlast : isLast s.remain = true := by rw [hr]; decide
  have hcount : blockCount s.remain = 128 := by rw [hr]; decide
  refine ⟨nextState s, exec_cmdNext hb hp, hlast, ?_, ?_, fun hk => ?_, fun hk j => ?_, engineRun_last_done hb hp hlast⟩
  · rw [nextState_t, hcount]
    rfl
  · rw [nextState_remain, hcount, hr]
    rfl
  · rw [nextState_m, hcount, hk]
    exact padBlock_full s.m
  · rw [nextState_m, hk]
    exact blockByte_padBlock s.kl.toNat s.m j

end Sys2Proof.Machine
end

section
/-! PROOFS. The register accesses and WIPE as the host sees them (O16, O17, O18, O20). -/

namespace Sys2Proof.Machine

variable {s : State}

/-- While BUSY = 1 a write or a command changes ERRCODE at most (60_exceptions.md R223, R224). -/
theorem exec_busy_write (hb : s.busy = true) {i : Instr} (hw : txIsWrite (encode i) = true) :
    exec i s = .next { s with errcode := if s.errcode = .none then .busy else s.errcode } := by
  have hi : i ≠ .rdStatus := by
    rintro rfl
    simp [encode] at hw
  rw [exec_busy_eq hb hi, hw, refusedState_eq]
  rfl

/-- While BUSY = 1 a read of any register but STATUS returns 0 (60_exceptions.md R223, R224). -/
theorem exec_busy_read (hb : s.busy = true) {i : Instr} (hr : txIsWrite (encode i) = false) (hi : i ≠ .rdStatus) :
    exec i s = .next { s with
      errcode := if s.errcode = .none then .busy else s.errcode
      replies := 0 :: s.replies } := by
  rw [exec_busy_eq hb hi, hr, refusedState_eq]
  rfl

/-- The word of CONFIG as the register's number (43_driver.md R175). -/
theorem configStored_eq_ofNat (d : Word) : configStored d = BitVec.ofNat 16 (d.toNat % 2 ^ 16) := by
  apply BitVec.eq_of_toNat_eq
  rw [configStored, BitVec.extractLsb'_toNat, BitVec.toNat_ofNat, Nat.shiftRight_zero, Nat.mod_mod]

theorem configWord_eq_ofNat (c : BitVec 16) : configWord c = BitVec.ofNat 64 c.toNat :=
  BitVec.ofNat_toNat 64 c |>.symm

theorem tLo_eq_ofNat (t : Count) : tLo t = BitVec.ofNat 64 (t.toNat % 2 ^ 64) := by
  apply BitVec.eq_of_toNat_eq
  rw [tLo, BitVec.extractLsb'_toNat, BitVec.toNat_ofNat, Nat.shiftRight_zero, Nat.mod_mod]

theorem tHi_eq_ofNat (t : Count) : tHi t = BitVec.ofNat 64 (t.toNat / 2 ^ 64) := by
  apply BitVec.eq_of_toNat_eq
  rw [tHi, BitVec.extractLsb'_toNat, BitVec.toNat_ofNat, Nat.shiftRight_eq_div_pow]

theorem vector_get_ofFn {n : Nat} (f : Fin n → Word) (i : Fin n) : (Vector.ofFn f).get i = f i :=
  Vector.getElem_ofFn i.isLt

/-- A write of one word of the block, word by word. -/
theorem set_eq_ofFn (m : Vector Word 16) (i : Fin 16) (d : Word) :
    m.set i d = Vector.ofFn fun k => if k = i then d else m.get k :=
  vector_ext_get fun k => by rw [vector_get_set, vector_get_ofFn]

/-- Settles O17: while BUSY = 0 each write is its meaning, with the stored value as a number or word by word. -/
theorem writesStoreTheirRegister : Obligations.WritesStoreTheirRegister := by
  unfold Obligations.WritesStoreTheirRegister
  intro s d
  refine ⟨fun hb => ?_, fun hb i hi => ?_⟩
  · obtain ⟨hconfig, hmsglen, hm⟩ := exec_writes hb
    exact ⟨by rw [hconfig, configStored_eq_ofNat], hmsglen d, fun i => by rw [hm, set_eq_ofFn]⟩
  · rcases hi with rfl | rfl | ⟨k, rfl⟩ <;> exact exec_busy_write hb (txIsWrite_txWord ..)

/-- Settles O18: while BUSY = 0 each read returns the word of its register, here as a number. -/
theorem readsReturnTheirRegister : Obligations.ReadsReturnTheirRegister := by
  unfold Obligations.ReadsReturnTheirRegister
  intro s
  refine ⟨fun hb => ?_, fun hb i hi => ?_⟩
  · obtain ⟨hconfig, hmsglen, hlo, hhi, hm, -⟩ := exec_reads hb
    rw [configWord_eq_ofNat] at hconfig
    rw [tLo_eq_ofNat] at hlo
    rw [tHi_eq_ofNat] at hhi
    exact ⟨hconfig, hmsglen, hlo, hhi, hm⟩
  · rcases hi with rfl | rfl | rfl | rfl | ⟨k, rfl⟩ <;> exact exec_busy_read hb (txIsWrite_txWord ..) nofun

/-- Settles O20: DIGEST[i] is H[i] kept below byte HL. -/
theorem digestReadMasksTheHash : Obligations.DigestReadMasksTheHash := by
  unfold Obligations.DigestReadMasksTheHash
  intro s i
  refine ⟨fun hb hdone => ?_, fun hb hdone => ?_, fun hb => ?_⟩
  · obtain ⟨-, -, -, -, -, hdigest⟩ := exec_reads hb
    refine ⟨digestWord s.h s.hl i, ?_, fun k hk => byteOf_keepBelow s.hl.toNat i.val (s.h.get i) k hk⟩
    rw [hdigest, if_pos hdone]
    rfl
  · obtain ⟨-, -, -, -, -, hdigest⟩ := exec_reads hb
    rw [hdigest, if_neg hdone, refusedState_eq]
    rfl
  · exact exec_busy_read hb (txIsWrite_txWord ..) nofun

/-- Settles O16: WIPE is `clearEngine`, which gives every element of R20 its reset value. -/
theorem wipeErasesAllState : Obligations.WipeErasesAllState := by
  unfold Obligations.WipeErasesAllState
  intro s
  refine ⟨fun hb => ?_, fun hb => exec_busy_write hb (txIsWrite_txWord ..)⟩
  obtain ⟨-, -, hwipe⟩ := exec_commands hb
  exact hwipe

end Sys2Proof.Machine
end

section
/-! PROOFS. The commands INIT and NEXT, element by element (O14, O15, O52, O55). -/

namespace Sys2Proof.Machine

variable {s : State}

/-! ### The parameter word -/

/-- The constant of the parameter word leaves the two bytes of KEYLEN and HASHLEN free (43_driver.md R170). -/
theorem paramConstant_low : ∀ i < 16, (0x01010000#64).getLsbD i = false := by decide

/-- Bit by bit no two terms of the parameter word are 1, so XOR is OR. -/
theorem paramWord_eq_or (kk nn : Byte) :
    paramWord kk nn = 0x01010000 ||| (kk.setWidth 64 <<< 8) ||| nn.setWidth 64 := by
  apply BitVec.eq_of_getLsbD_eq
  intro i hi
  simp only [paramWord, BitVec.getLsbD_xor, BitVec.getLsbD_or]
  by_cases hnn : i < 8
  · simp [paramConstant_low i (by omega), hnn]
  have hzero : (nn.setWidth 64).getLsbD i = false := by simp [BitVec.getLsbD_of_ge nn i (by omega)]
  by_cases hkk : i < 16
  · simp [hzero, paramConstant_low i hkk]
  · have hshift : (kk.setWidth 64 <<< 8).getLsbD i = false := by simp [BitVec.getLsbD_of_ge kk (i - 8) (by omega)]
    simp [hzero, hshift]

/-- The three terms as digits of base 256. -/
theorem paramWord_toNat (kk nn : Byte) : (paramWord kk nn).toNat = 0x01010000 + 256 * kk.toNat + nn.toNat := by
  have hk : 2 ^ 8 * kk.toNat < 2 ^ 16 := by have := kk.isLt; omega
  have hconst : 2 ^ 16 * 0x0101 ||| 2 ^ 8 * kk.toNat = 2 ^ 8 * (0x010100 + kk.toNat) := by
    rw [← Nat.two_pow_add_eq_or_of_lt hk]
    omega
  have hshift : (kk.setWidth 64 <<< 8).toNat = 2 ^ 8 * kk.toNat := by
    rw [BitVec.toNat_shiftLeft, BitVec.toNat_setWidth, Nat.shiftLeft_eq]
    omega
  have hnn : (nn.setWidth 64).toNat = nn.toNat := by
    rw [BitVec.toNat_setWidth]
    omega
  calc (paramWord kk nn).toNat
      = (2 ^ 16 * 0x0101 ||| 2 ^ 8 * kk.toNat) ||| nn.toNat := by
        rw [paramWord_eq_or, BitVec.toNat_or, BitVec.toNat_or, hshift, hnn]
        rfl
    _ = 2 ^ 8 * (0x010100 + kk.toNat) + nn.toNat := by rw [hconst, ← Nat.two_pow_add_eq_or_of_lt nn.isLt]
    _ = 0x01010000 + 256 * kk.toNat + nn.toNat := by omega

/-- Settles O52: the terms have their bits in different bytes for every KEYLEN and HASHLEN of one byte, legal or not. -/
theorem parameterWordTermsAreDisjoint : Obligations.ParameterWordTermsAreDisjoint := by
  unfold Obligations.ParameterWordTermsAreDisjoint
  exact fun kk nn _ => ⟨paramWord_eq_or kk nn, paramWord_toNat kk nn⟩

/-! ### INIT -/

theorem initState_h (s : State) : (initState s).h = initialHash (keyLen s.config) (hashLen s.config) := rfl

/-- Word by word, only word 0 of the initial hash differs from IV (43_driver.md R172). -/
theorem initialHash_eq_ofFn (kk nn : Byte) :
    initialHash kk nn = Vector.ofFn fun i => if i = 0 then iv.get 0 ^^^ paramWord kk nn else iv.get i := by
  apply Vector.ext
  intro i hi
  rw [initialHash, Vector.getElem_set, Vector.getElem_ofFn]
  by_cases h : i = 0
  · subst h
    rfl
  · rw [if_neg (Ne.symm h), if_neg (fun h0 => h (congrArg Fin.val h0))]
    rfl

theorem combinedLength_eq_ofNat (msglen : Word) (kk : Byte) :
    combinedLength msglen kk = BitVec.ofNat 128 (msglen.toNat + if 0 < kk.toNat then 128 else 0) := by
  rw [← combinedLength_toNat, BitVec.ofNat_toNat, BitVec.setWidth_eq]

/-- An INIT with a legal configuration is `initState`. -/
theorem exec_cmdInit (hb : s.busy = false) (hlegal : legalConfig (keyLen s.config) (hashLen s.config) = true) :
    exec .cmdInit s = .next (initState s) := by
  obtain ⟨hinit, -⟩ := exec_commands hb
  rw [hinit, if_pos hlegal]

/-- Settles O14: the three outcomes are the BUSY check, the check of the configuration and `initState`. -/
theorem initStartsAHashOrRaisesConfig : Obligations.InitStartsAHashOrRaisesConfig := by
  unfold Obligations.InitStartsAHashOrRaisesConfig
  intro s kk nn
  have hlegal := legalConfig_iff (keyLen s.config) (hashLen s.config)
  refine ⟨fun hb hok => ?_, fun hb hbad => ?_, fun hb => exec_busy_write hb (txIsWrite_txWord ..)⟩
  · have hpos : kk > 0 ↔ 0 < kk.toNat := BitVec.lt_def
    have hinit : initState s = { initState s with
        h := Vector.ofFn fun i => if i = 0 then iv.get 0 ^^^ paramWord kk nn else iv.get i
        remain := BitVec.ofNat 128 (s.msglen.toNat + if 0 < kk.toNat then 128 else 0)
        keypend := decide (0 < kk.toNat) } := by
      rw [← initialHash_eq_ofFn, ← combinedLength_eq_ofNat, ← decide_eq_decide.mpr hpos]
      rfl
    rw [exec_cmdInit hb (hlegal.mpr hok), hinit]
    rfl
  · obtain ⟨hinit, -⟩ := exec_commands hb
    rw [hinit, if_neg (fun h => hbad (hlegal.mp h)), refusedState_eq]
    rfl

/-- Settles O55: INIT looks at no element of the old hash, and writes all of them but V. -/
theorem restartKeepsNoTraceOfTheOldHash : Obligations.RestartKeepsNoTraceOfTheOldHash := by
  unfold Obligations.RestartKeepsNoTraceOfTheOldHash
  intro s s' hb hlegal hs
  have hsame : initState s' = initState s := by
    rw [hs]
    rfl
  have hb' : s'.busy = false := by rw [hs]; exact hb
  have hlegal' : legalConfig (keyLen s'.config) (hashLen s'.config) = true := by rw [hs]; exact hlegal
  exact ⟨initState s, exec_cmdInit hb hlegal, hsame ▸ exec_cmdInit hb' hlegal', rfl, rfl⟩

/-! ### NEXT -/

theorem isLast_eq_decide (r : Count) : isLast r = decide (r.toNat ≤ 128) :=
  Bool.eq_iff_iff.mpr ((isLast_iff r).trans (decide_eq_true_iff).symm)

/-- The byte count as it is added to T and taken from REMAIN (42_message_assembler.md R156, R159). -/
theorem blockCount_setWidth (r : Count) : (blockCount r).setWidth 128 = BitVec.ofNat 128 (min 128 r.toNat) := by
  rw [← blockCount_toNat, BitVec.ofNat_toNat]

/-- An accepted NEXT with the last-block decision and the byte count as numbers. -/
theorem nextState_eq (s : State) :
    nextState s = { s with
      lastf := decide (s.remain.toNat ≤ 128)
      m := (nextState s).m
      t := s.t + BitVec.ofNat 128 (min 128 s.remain.toNat)
      remain := s.remain - BitVec.ofNat 128 (min 128 s.remain.toNat)
      v := (nextState s).v
      rnd := 0, gix := 0, busy := true } := by
  rw [← isLast_eq_decide, ← blockCount_setWidth]
  rfl

/-- V before the counter and the flag go in: H, then IV (41_compression.md R123). -/
def seedBase (h : Vector Word 8) : Vector Word 16 :=
  Vector.ofFn fun i => if hi : i.val < 8 then h.get ⟨i.val, hi⟩ else iv.get ⟨i.val - 8, by omega⟩

theorem seedBase_get_low (h : Vector Word 8) (i : Fin 8) : (seedBase h).get ⟨i.val, by omega⟩ = h.get i :=
  (vector_get_ofFn _ _).trans (dif_pos i.isLt)

theorem seedBase_get_high (h : Vector Word 8) (i : Fin 8) : (seedBase h).get ⟨i.val + 8, by omega⟩ = iv.get i :=
  (vector_get_ofFn _ _).trans (dif_neg (Nat.not_lt.mpr (Nat.le_add_left 8 i.val)))

/-- The counter goes into words 12 and 13, the flag into word 14 (41_compression.md R124, R125). -/
theorem seedV_eq_set (h : Vector Word 8) (c : Count) (last : Bool) :
    seedV h c last =
      let v := ((seedBase h).set (12 : Fin 16) (iv.get 4 ^^^ tLo c)).set (13 : Fin 16) (iv.get 5 ^^^ tHi c)
      if last then v.set (14 : Fin 16) (~~~ iv.get 6) else v := by
  have h12 : (seedBase h)[12] = iv.get 4 := seedBase_get_high h 4
  have h13 : (seedBase h)[13] = iv.get 5 := seedBase_get_high h 5
  have h14 : (seedBase h)[14] ^^^ 0xFFFFFFFFFFFFFFFF = ~~~ iv.get 6 := by
    rw [show (seedBase h)[14] = iv.get 6 from seedBase_get_high h 6]
    decide
  simp only [seedV, ← seedBase.eq_1, h12, h13, h14, Vector.getElem_set_ne, ne_eq, Nat.reduceEqDiff, not_false_eq_true]
  rfl

theorem seedV_get (h : Vector Word 8) (c : Count) (last : Bool) (k : Fin 16) :
    (seedV h c last).get k =
      if k = 14 ∧ last = true then ~~~ iv.get 6
      else if k = 13 then iv.get 5 ^^^ tHi c
      else if k = 12 then iv.get 4 ^^^ tLo c
      else (seedBase h).get k := by
  rw [seedV_eq_set]
  cases last <;> simp only [vector_get_set, if_true, if_false, and_true, and_false, Bool.false_eq_true]

/-- The first half of the seeded V is the hash state (41_compression.md R123). -/
theorem seedV_get_low (h : Vector Word 8) (c : Count) (last : Bool) (i : Fin 8) :
    (seedV h c last).get ⟨i.val, by omega⟩ = h.get i := by
  have hne : ∀ k : Fin 16, 8 ≤ k.val → (⟨i.val, by omega⟩ : Fin 16) ≠ k := fun k hk =>
    Fin.ne_of_val_ne (Nat.ne_of_lt (Nat.lt_of_lt_of_le i.isLt hk))
  rw [seedV_get, if_neg fun hk => hne 14 (by decide) hk.1, if_neg (hne 13 (by decide)), if_neg (hne 12 (by decide)),
    seedBase_get_low]

/-- The second half of the seeded V is IV, with the counter in two of its words and the flag in one
(41_compression.md R123 to R125). -/
theorem seedV_get_high (h : Vector Word 8) (c : Count) (last : Bool) (i : Fin 8) :
    (seedV h c last).get ⟨i.val + 8, by omega⟩ =
      if i = 4 then iv.get 4 ^^^ tLo c
      else if i = 5 then iv.get 5 ^^^ tHi c
      else if i = 6 ∧ last = true then ~~~ iv.get 6
      else iv.get i := by
  have heq : ∀ k : Fin 8, (⟨i.val + 8, by omega⟩ : Fin 16) = ⟨k.val + 8, by omega⟩ ↔ i = k := fun k => by
    simp [Fin.ext_iff]
  rw [seedV_get, seedBase_get_high]
  simp only [show (14 : Fin 16) = ⟨(6 : Fin 8).val + 8, by decide⟩ from rfl,
    show (13 : Fin 16) = ⟨(5 : Fin 8).val + 8, by decide⟩ from rfl,
    show (12 : Fin 16) = ⟨(4 : Fin 8).val + 8, by decide⟩ from rfl, heq]
  grind

/-- Settles O15: an accepted NEXT is `nextState`, whose block is padded and whose V is seeded. -/
theorem nextTakesABlock : Obligations.NextTakesABlock := by
  unfold Obligations.NextTakesABlock
  intro s hb hp last n start
  have hlast : (nextState s).lastf = last := isLast_eq_decide s.remain
  have hn : n = min 128 s.remain.toNat := by
    simp only [n, last]
    simp only [decide_eq_true_eq]
    split <;> omega
  have hstart : padFrom s.keypend s.kl (blockCount s.remain) = start := by
    simp only [padFrom, blockCount_toNat, ← hn]
    rfl
  refine ⟨nextState s, exec_cmdNext hb hp, ?_, fun j => ?_, fun i => ?_, fun i => ?_⟩
  · rw [hn]
    exact nextState_eq s
  · rw [nextState_m, hstart, blockByte_padBlock]
  · exact seedV_get_low s.h (nextState s).t (nextState s).lastf i
  · rw [← hlast]
    exact seedV_get_high s.h (nextState s).t (nextState s).lastf i

end Sys2Proof.Machine
end

section
/-! PROOFS. The host's protocol computes the one-shot digest (O58): one lemma for a block, an induction over the blocks
of the message, and the commands around them. -/

namespace Sys2Proof.Machine

variable {s : State} {hl : Byte} {h : Vector Word 8} {c : Count} {rest : Nat}

/-! ### Blocks as words -/

/-- Block byte 8·i + k is byte k of M[i] (10_state.md R23). -/
theorem blockByte_word (m : Vector Word 16) (i : Fin 16) (k : Nat) (hk : k < 8) :
    blockByte m ⟨8 * i.val + k, by omega⟩ = byteOf (m.get i) k := by
  have hdiv : (8 * i.val + k) / 8 = i.val := by omega
  have hmod : (8 * i.val + k) % 8 = k := by omega
  simp only [blockByte, hdiv, hmod]

theorem block_ext {m m' : Vector Word 16} (h : ∀ j : Fin 128, blockByte m j = blockByte m' j) : m = m' := by
  apply vector_ext_get
  intro i
  apply word_ext_bytes
  intro k hk
  rw [← blockByte_word m i k hk, ← blockByte_word m' i k hk, h]

/-- Missing bytes of a block are 0 (10_state.md R23). -/
theorem blockByte_blockWords (bytes : List Byte) (j : Fin 128) :
    blockByte (blockWords bytes) j = bytes.getD j.val 0 := by
  have hk : j.val % 8 < 8 := Nat.mod_lt _ (by decide)
  rw [blockByte, blockWords, vector_get_ofFn, byteOf_le64_group _ _ _ hk, Nat.div_add_mod]

/-- The key block holds the words of the key (42_message_assembler.md R151). -/
theorem blockWords_keyBlock (key : List Byte) : blockWords (keyBlock key) = blockWords key := by
  apply block_ext
  intro j
  simp only [blockByte_blockWords, keyBlock, List.getD_eq_getElem?_getD, List.getElem?_append]
  split
  next => rfl
  next hge =>
    rw [List.getElem?_eq_none (Nat.not_lt.mp hge), List.getElem?_replicate]
    split <;> rfl

/-- Padding from the end of the loaded bytes on makes the block exactly these bytes, whatever it held before. -/
theorem padBlock_loaded {bytes : List Byte} {m : Vector Word 16}
    (hm : ∀ j : Fin 128, j.val < bytes.length → blockByte m j = bytes.getD j.val 0) :
    padBlock bytes.length m = blockWords bytes := by
  apply block_ext
  intro j
  rw [blockByte_padBlock, blockByte_blockWords]
  split
  next hge => rw [List.getD_eq_getElem?_getD, List.getElem?_eq_none hge, Option.getD_none]
  next hlt => exact hm j (Nat.not_le.mp hlt)

/-! ### One block -/

/-- The operations that hand one block to the engine (43_driver.md R186). -/
def blockOps (bytes : List Byte) : List HostOp :=
  loadBlockOps bytes ++ [writeOp .cmd Command.next.opcode, .poll]

/-- Between two blocks: the hash `h` after `c` bytes, with `rest` bytes of the combined stream to come. -/
structure Hashing (s : State) (hl : Byte) (h : Vector Word 8) (c : Count) (rest : Nat) : Prop where
  busy : s.busy = false
  phase : s.phase = .active
  errcode : s.errcode = .none
  hl : s.hl = hl
  h : s.h = h
  t : s.t = c
  remain : s.remain.toNat = rest

/-- After the last block: the final hash `h`. -/
structure Hashed (s : State) (hl : Byte) (h : Vector Word 8) : Prop where
  busy : s.busy = false
  phase : s.phase = .done
  errcode : s.errcode = .none
  hl : s.hl = hl
  h : s.h = h

/-- NEXT and its POLL in the fused form: the state after the 97 engine steps, and one reply (41_compression.md R141). -/
theorem runFused_next_poll (hb : s.busy = false) (hp : s.phase = .active) :
    ∃ u, runFused [writeOp .cmd Command.next.opcode, .poll] s = some u ∧
      u = { nextState s with
        h := compressF s.h (nextState s).m (nextState s).t (nextState s).lastf
        v := u.v
        keypend := false
        phase := if (nextState s).lastf then .done else .active
        busy := false
        replies := u.replies } := by
  obtain ⟨hrun, -⟩ := ninetySevenEngineStepsComputeF s _ hb hp (exec_cmdNext hb hp)
  have hw : transact 8 (txWord true Reg.cmd.addr Command.next.opcode) s = .next (nextState s) :=
    (transact_instr (decode_encode .cmdNext) s).trans (exec_cmdNext hb hp)
  refine ⟨(engineRun 97 (nextState s)).reply (statusWord (engineRun 97 (nextState s))), ?_, ?_⟩
  · simp only [writeOp, runFused, hw, nextState_busy, if_true]
  · rw [hrun]
    rfl

/-- What a block does to the hash, when padding starts where its bytes end. -/
theorem runFused_blockOps (hs : Hashing s hl h c rest) {bytes : List Byte} (hlen : bytes.length ≤ 128)
    (hpad : padFrom s.keypend s.kl (blockCount s.remain) = bytes.length) :
    ∃ u, runFused (blockOps bytes) s = some u ∧ u.keypend = false ∧
      (rest ≤ 128 → Hashed u hl (compressF h (blockWords bytes) (c + BitVec.ofNat 128 rest) true)) ∧
      (128 < rest → Hashing u hl (compressF h (blockWords bytes) (c + 128) false) (c + 128) (rest - 128)) := by
  obtain ⟨hb, hp, he, rfl, rfl, rfl, rfl⟩ := hs
  obtain ⟨a, hload, ha, hbytes⟩ := loadBlockPutsTheBytesInPlace bytes s hlen hb
  obtain ⟨u, hrun, hu⟩ := runFused_next_poll (s := a) (by rw [ha]; exact hb) (by rw [ha]; exact hp)
  have hm : (nextState a).m = blockWords bytes := by
    have hpad' : padFrom a.keypend a.kl (blockCount a.remain) = bytes.length := by rw [ha]; exact hpad
    rw [nextState_m, hpad']
    exact padBlock_loaded fun j hj => by rw [hbytes, if_pos (by omega)]
  have ht : (nextState a).t = s.t + BitVec.ofNat 128 (min 128 s.remain.toNat) := by
    rw [nextState_t, blockCount_setWidth, ha]
  have hr : (nextState a).remain.toNat = s.remain.toNat - min 128 s.remain.toNat := by
    rw [nextState_remain_toNat, ha]
  have hlast : (nextState a).lastf = decide (s.remain.toNat ≤ 128) := by
    rw [nextState_lastf, isLast_eq_decide, ha]
  have hh : a.h = s.h := by rw [ha]
  have hhl : a.hl = s.hl := by rw [ha]
  have hae : a.errcode = .none := by rw [ha]; exact he
  rw [hm, ht, hlast, hh] at hu
  refine ⟨u, by rw [blockOps, runFused_append, hload]; exact hrun, by rw [hu], fun hle => ?_, fun hgt => ?_⟩
  · rw [Nat.min_eq_right hle, decide_eq_true hle] at hu
    rw [hu]
    exact ⟨rfl, rfl, hae, hhl, rfl⟩
  · rw [Nat.min_eq_left (Nat.le_of_lt hgt)] at hu hr ht
    rw [decide_eq_false (Nat.not_le.mpr hgt)] at hu
    rw [hu]
    exact ⟨rfl, rfl, hae, hhl, rfl, ht, hr⟩

/-! ### The blocks of the protocol -/

theorem hashBlocks_last (n : Nat) (h : Vector Word 8) (c : Count) {stream : List Byte} (hlen : stream.length ≤ 128) :
    hashBlocks (n + 1) h c stream = compressF h (blockWords stream) (c + BitVec.ofNat 128 stream.length) true :=
  if_pos hlen

theorem hashBlocks_more (n : Nat) (h : Vector Word 8) (c : Count) {stream : List Byte} (hlen : 128 < stream.length) :
    hashBlocks (n + 1) h c stream =
      hashBlocks n (compressF h (blockWords (stream.take 128)) (c + 128) false) (c + 128) (stream.drop 128) :=
  if_neg (Nat.not_le.mpr hlen)

theorem chunks_nil (n : Nat) : chunks n [] = [] := by cases n <;> rfl

theorem chunks_of_ne_nil (n : Nat) {bytes : List Byte} (hne : bytes ≠ []) :
    chunks (n + 1) bytes = bytes.take 128 :: chunks n (bytes.drop 128) := by
  simp [chunks, hne]

theorem length_le_of_mem_chunks {n : Nat} {bytes chunk : List Byte} (hc : chunk ∈ chunks n bytes) :
    chunk.length ≤ 128 := by
  induction n generalizing bytes with
  | zero => simp [chunks] at hc
  | succ n ih =>
    by_cases hne : bytes = []
    · simp [hne, chunks_nil] at hc
    · rw [chunks_of_ne_nil n hne, List.mem_cons] at hc
      rcases hc with rfl | hc
      · exact List.length_take_le _ _
      · exact ih hc

/-- Block by block, the message's chunks make the hash of the rest of the stream. -/
theorem runFused_chunks {n : Nat} {message : List Byte} (hne : message ≠ []) (hfuel : message.length < 128 * n)
    (hs : Hashing s hl h c message.length) (hk : s.keypend = false) :
    ∃ u, runFused ((chunks n message).flatMap blockOps) s = some u ∧ Hashed u hl (hashBlocks n h c message) := by
  induction n generalizing s h c message with
  | zero => omega
  | succ n ih =>
    have hlen : (message.take 128).length = min 128 message.length := List.length_take ..
    have hpad : padFrom s.keypend s.kl (blockCount s.remain) = (message.take 128).length := by
      rw [hlen, ← hs.remain, ← blockCount_toNat, hk]
      rfl
    obtain ⟨u, hrun, hku, hlast, hmore⟩ := runFused_blockOps hs (by omega) hpad
    rw [chunks_of_ne_nil n hne, List.flatMap_cons, runFused_append, hrun]
    by_cases hle : message.length ≤ 128
    · have htake : message.take 128 = message := List.take_of_length_le hle
      rw [htake] at hlast
      rw [List.drop_of_length_le hle, chunks_nil, hashBlocks_last n h c hle]
      exact ⟨u, rfl, hlast hle⟩
    · have hgt : 128 < message.length := Nat.not_le.mp hle
      have hdrop : (message.drop 128).length = message.length - 128 := List.length_drop ..
      rw [hashBlocks_more n h c hgt]
      exact ih (List.ne_nil_of_length_pos (by omega)) (by omega) (hdrop ▸ hmore hgt) hku

/-- The byte lists that the protocol loads, one for each NEXT (43_driver.md R186). -/
def protocolBlocks (key message : List Byte) : List (List Byte) :=
  (if key.length > 0 then [key] else []) ++ chunks (message.length / 128 + 1) message ++
    (if key.length = 0 ∧ message.length = 0 then [[]] else [])

/-- The NEXT of the empty unkeyed message, which follows no load, is a block of no bytes. -/
theorem blocksProgram_ops (key message : List Byte) :
    (blocksProgram key message).flatMap Stmt.ops = (protocolBlocks key message).flatMap blockOps := by
  have hchunk : ∀ bytes : List Byte, (blockStmts (.ldblk bytes)).flatMap Stmt.ops = blockOps bytes := fun _ => rfl
  have hkey : (blockStmts (.ldkey key)).flatMap Stmt.ops = blockOps key := rfl
  have hnone : [Stmt.cmd .next, .poll].flatMap Stmt.ops = blockOps [] := rfl
  simp only [blocksProgram, protocolBlocks, List.flatMap_append, List.flatMap_assoc, hchunk, apply_ite (List.flatMap _),
    hkey, hnone, List.flatMap_nil, List.flatMap_singleton]

theorem blockStmts_wf {load : Stmt} (hload : load.wf = true) : ∀ stmt ∈ blockStmts load, stmt.wf = true := by
  intro stmt hmem
  simp only [blockStmts, List.mem_cons, List.not_mem_nil, or_false] at hmem
  rcases hmem with rfl | rfl | rfl
  · exact hload
  · rfl
  · rfl

/-- No key is too long for LDKEY and no chunk for LDBLK (30_encoding.md R88). -/
theorem blocksProgram_wf {key message : List Byte} (hkey : key.length ≤ 64) :
    ∀ stmt ∈ blocksProgram key message, stmt.wf = true := by
  intro stmt hmem
  simp only [blocksProgram, List.mem_append, List.mem_flatMap, List.mem_ite_nil_right] at hmem
  rcases hmem with (⟨hpos, hmem⟩ | ⟨chunk, hchunk, hmem⟩) | ⟨-, hmem⟩
  · have hload : (Stmt.ldkey key).wf = true := by
      simp only [Stmt.wf, Bool.and_eq_true, decide_eq_true_eq]
      exact ⟨hpos, hkey⟩
    exact blockStmts_wf hload stmt hmem
  · exact blockStmts_wf (load := .ldblk chunk) (decide_eq_true (length_le_of_mem_chunks hchunk)) stmt hmem
  · simp only [List.mem_cons, List.not_mem_nil, or_false] at hmem
    rcases hmem with rfl | rfl <;> rfl

/-! ### The combined stream -/

theorem keyBlock_length {key : List Byte} (hkey : key.length ≤ 64) : (keyBlock key).length = 128 := by
  rw [keyBlock, List.length_append, List.length_replicate]
  omega

theorem combinedStream_keyed {key : List Byte} (hpos : 0 < key.length) (message : List Byte) :
    combinedStream key message = keyBlock key ++ message :=
  if_pos hpos

/-- The combined length, as INIT puts it into REMAIN (42_message_assembler.md R150). -/
theorem combinedStream_length {key : List Byte} (hkey : key.length ≤ 64) (message : List Byte) :
    (combinedStream key message).length = message.length + if 0 < key.length then 128 else 0 := by
  unfold combinedStream
  split
  · rw [List.length_append, keyBlock_length hkey, Nat.add_comm]
  · rfl

/-- With a key the blocks are the key and the message's chunks. -/
theorem runFused_blocks_keyed {key message : List Byte} (hkey : key.length ≤ 64) (hpos : 0 < key.length)
    (hs : Hashing s hl h 0 (keyBlock key ++ message).length) (hkl : s.kl.toNat = key.length) (hkp : s.keypend = true) :
    ∃ u, runFused ((protocolBlocks key message).flatMap blockOps) s = some u ∧
      Hashed u hl (hashBlocks ((keyBlock key ++ message).length / 128 + 1) h 0 (keyBlock key ++ message)) := by
  have hblock := keyBlock_length hkey
  have hblocks : protocolBlocks key message = key :: chunks (message.length / 128 + 1) message := by
    simp [protocolBlocks, hpos, Nat.ne_of_gt hpos]
  have hlength : (keyBlock key ++ message).length = 128 + message.length := by rw [List.length_append, hblock]
  have hpad : padFrom s.keypend s.kl (blockCount s.remain) = key.length := by
    rw [hkp, ← hkl]
    rfl
  obtain ⟨u, hrun, hku, hlast, hmore⟩ := runFused_blockOps hs (by omega) hpad
  rw [hblocks, List.flatMap_cons, runFused_append, hrun]
  by_cases hm : message = []
  · subst hm
    have hle : (keyBlock key ++ []).length ≤ 128 := by rw [hlength]; simp
    refine ⟨u, rfl, ?_⟩
    rw [hashBlocks_last _ _ _ hle, List.append_nil, blockWords_keyBlock, ← List.append_nil (keyBlock key)]
    exact hlast hle
  · have hmpos := List.length_pos_iff.mpr hm
    have hgt : 128 < (keyBlock key ++ message).length := by omega
    have hfuel : (keyBlock key ++ message).length / 128 = message.length / 128 + 1 := by omega
    rw [hfuel, hashBlocks_more _ _ _ hgt, List.take_left' hblock, List.drop_left' hblock, blockWords_keyBlock]
    have hmore := hmore hgt
    rw [show (keyBlock key ++ message).length - 128 = message.length by omega] at hmore
    exact runFused_chunks hm (by omega) hmore hku

/-- Without a key the blocks are the message's chunks, or one block of no bytes when there are none. -/
theorem runFused_blocks_unkeyed {message : List Byte} (hs : Hashing s hl h 0 message.length) (hkp : s.keypend = false) :
    ∃ u, runFused ((protocolBlocks [] message).flatMap blockOps) s = some u ∧
      Hashed u hl (hashBlocks (message.length / 128 + 1) h 0 message) := by
  by_cases hm : message = []
  · subst hm
    have hpad : padFrom s.keypend s.kl (blockCount s.remain) = ([] : List Byte).length := by
      rw [hkp]
      exact (blockCount_toNat s.remain).trans (by rw [hs.remain]; rfl)
    obtain ⟨u, hrun, -, hlast, -⟩ := runFused_blockOps hs (by simp) hpad
    exact ⟨u, hrun, hlast (by simp)⟩
  · have hblocks : protocolBlocks [] message = chunks (message.length / 128 + 1) message := by
      simp [protocolBlocks, hm]
    rw [hblocks]
    exact runFused_chunks hm (by omega) hs hkp

/-- The blocks of the protocol make the hash of the combined stream. -/
theorem runFused_protocolBlocks {key message : List Byte} (hkey : key.length ≤ 64)
    (hs : Hashing s hl h 0 (combinedStream key message).length) (hkl : s.kl.toNat = key.length)
    (hkp : s.keypend = decide (0 < key.length)) :
    ∃ u, runFused ((protocolBlocks key message).flatMap blockOps) s = some u ∧
      Hashed u hl (hashBlocks ((combinedStream key message).length / 128 + 1) h 0 (combinedStream key message)) := by
  by_cases hpos : 0 < key.length
  · rw [combinedStream_keyed hpos] at hs ⊢
    exact runFused_blocks_keyed hkey hpos hs hkl (hkp.trans (decide_eq_true hpos))
  · obtain rfl : key = [] := List.eq_nil_of_length_eq_zero (by omega)
    exact runFused_blocks_unkeyed hs hkp

/-! ### The commands around the blocks -/

/-- The state after the protocol's writes of CONFIG and MSGLEN (43_driver.md R186). -/
def configured (s : State) (kk nn len : Nat) : State :=
  { s with config := configStored (BitVec.ofNat 64 (kk <<< 8 ||| nn)), msglen := BitVec.ofNat 64 len }

theorem configured_fields {kk nn : Nat} (hkk : kk ≤ 64) (hnn : nn ≤ 64) (s : State) (len : Nat) :
    keyLen (configured s kk nn len).config = BitVec.ofNat 8 kk ∧
      hashLen (configured s kk nn len).config = BitVec.ofNat 8 nn := by
  have hconfig : (configured s kk nn len).config.toNat = 256 * kk + nn := by
    rw [configured, ← Nat.shiftLeft_add_eq_or_of_lt (show nn < 2 ^ 8 by omega), Nat.shiftLeft_eq,
      configStored_eq_ofNat, BitVec.toNat_ofNat, BitVec.toNat_ofNat]
    omega
  constructor
  · apply BitVec.eq_of_toNat_eq
    rw [keyLen_toNat, hconfig, BitVec.toNat_ofNat]
    omega
  · apply BitVec.eq_of_toNat_eq
    rw [hashLen_toNat, hconfig, BitVec.toNat_ofNat]
    omega

/-- The word of an instruction that leaves BUSY = 0 runs as the instruction. -/
theorem runFused_instr {i : Instr} {t : State} (he : exec i s = .next t) (hb : t.busy = false) (ops : List HostOp) :
    runFused (.tx 8 (encode i) :: ops) s = runFused ops t := by
  simp [runFused, transact_instr (decode_encode i), he, hb]

/-- The statements of the protocol before the first block (43_driver.md R186). -/
def startStmts (kk nn len : Nat) : List Stmt := [.wr .config (kk <<< 8 ||| nn), .wr .msglen len, .cmd .init]

/-- The protocol's first three statements are the two register writes and an accepted INIT. -/
theorem runFused_startStmts {kk nn : Nat} (hkk : kk ≤ 64) (hpos : 1 ≤ nn) (hnn : nn ≤ 64) (len : Nat)
    (hb : s.busy = false) :
    runFused ((startStmts kk nn len).flatMap Stmt.ops) s = some (initState (configured s kk nn len)) := by
  obtain ⟨hk, hn⟩ := configured_fields hkk hnn s len
  have hlegal : legalConfig (keyLen (configured s kk nn len).config)
      (hashLen (configured s kk nn len).config) = true := by
    rw [hk, hn, legalConfig_iff, BitVec.toNat_ofNat, BitVec.toNat_ofNat]
    omega
  obtain ⟨hconfig, -, -⟩ := exec_writes hb
  obtain ⟨-, hmsglen, -⟩ := exec_writes (s := { s with config := configStored _ }) hb
  exact (runFused_instr (hconfig _) hb _).trans ((runFused_instr (hmsglen _) hb _).trans
    (runFused_instr (exec_cmdInit (s := configured s kk nn len) hb hlegal) hb []))

/-- INIT then starts a hash of the combined stream. -/
theorem hashing_initState_configured {key message : List Byte} {nn : Nat} (hkey : key.length ≤ 64) (hnn : nn ≤ 64)
    (hlen : message.length < 2 ^ 64) (hb : s.busy = false) :
    Hashing (initState (configured s key.length nn message.length)) (BitVec.ofNat 8 nn)
      (initialHash (BitVec.ofNat 8 key.length) (BitVec.ofNat 8 nn)) 0 (combinedStream key message).length := by
  obtain ⟨hk, hn⟩ := configured_fields hkey hnn s message.length
  refine ⟨hb, rfl, rfl, hn, by rw [initState_h, hk, hn], rfl, ?_⟩
  have hmod : key.length % 2 ^ 8 = key.length := by omega
  rw [initState_remain, combinedLength_toNat, hk, combinedStream_length hkey, configured, BitVec.toNat_ofNat,
    BitVec.toNat_ofNat, hmod, Nat.mod_eq_of_lt hlen]

/-- INIT latches the key length, and has a key block pending when there is a key. -/
theorem initState_configured_key {kk nn : Nat} (hkk : kk ≤ 64) (hnn : nn ≤ 64) (len : Nat) :
    (initState (configured s kk nn len)).kl.toNat = kk ∧
      (initState (configured s kk nn len)).keypend = decide (0 < kk) := by
  obtain ⟨hk, -⟩ := configured_fields hkk hnn s len
  have hkl : (BitVec.ofNat 8 kk).toNat = kk := by
    rw [BitVec.toNat_ofNat]
    omega
  rw [initState_kl, initState_keypend, hk]
  exact ⟨hkl, decide_eq_decide.mpr (BitVec.lt_def.trans (by rw [hkl]; rfl))⟩

/-- Byte 8·i + k of the digest is byte k of word i of the final hash (43_driver.md R185). -/
theorem blake2b_getElem? (key message : List Byte) {nn : Nat} (hnn : nn ≤ 64) (i : Fin 8) {k : Nat} (hk : k < 8)
    (hlt : 8 * i.val + k < nn) :
    (blake2b key message nn)[8 * i.val + k]? = some (byteOf ((hashState key message nn).get i) k) := by
  rw [← hashByte_word _ i k hk, blake2b, List.getElem?_take_of_lt hlt, List.getElem?_map,
    List.getElem?_eq_getElem (by simp; omega), List.getElem_finRange]
  rfl

/-- Both written values have 64 bits (30_encoding.md R87). -/
theorem startStmts_wf {kk nn len : Nat} (hkk : kk ≤ 64) (hnn : nn ≤ 64) (hlen : len < 2 ^ 64) :
    ∀ stmt ∈ startStmts kk nn len, stmt.wf = true := by
  have hconfig : kk <<< 8 ||| nn < 2 ^ 64 := by
    rw [← Nat.shiftLeft_add_eq_or_of_lt (show nn < 2 ^ 8 by omega), Nat.shiftLeft_eq]
    omega
  intro stmt hmem
  simp only [startStmts, List.mem_cons, List.not_mem_nil, or_false] at hmem
  rcases hmem with rfl | rfl | rfl
  · exact decide_eq_true hconfig
  · exact decide_eq_true hlen
  · rfl

/-- Settles O58: INIT starts the hash of the combined stream, the blocks finish it, and DIGEST shows its bytes. -/
theorem hostProtocolComputesTheDigest : Obligations.HostProtocolComputesTheDigest := by
  unfold Obligations.HostProtocolComputesTheDigest
  intro key message nn s hkey hpos hnn hlen hb
  have hwf : (startStmts key.length nn message.length ++ blocksProgram key message).all Stmt.wf = true := by
    rw [List.all_append, List.all_eq_true.mpr (startStmts_wf hkey hnn hlen),
      List.all_eq_true.mpr (blocksProgram_wf hkey)]
    rfl
  have hstart := runFused_startStmts hkey hpos hnn message.length hb
  obtain ⟨hkl, hkp⟩ := initState_configured_key (s := s) hkey hnn message.length
  obtain ⟨t, hblocks, hbt, hdone, herr, hhl, hh⟩ :=
    runFused_protocolBlocks hkey (hashing_initState_configured hkey hnn hlen hb) hkl hkp
  refine ⟨_, t, if_pos hwf, ?_, hbt, hdone, herr, hh, fun i => ?_⟩
  · rw [← startStmts, List.flatMap_append, runFused_append, hstart, blocksProgram_ops]
    exact hblocks
  · obtain ⟨hread, -⟩ := digestReadMasksTheHash t i
    obtain ⟨x, hx, hbyte⟩ := hread hbt hdone
    refine ⟨x, hx, fun k hk hlt => ?_⟩
    have hbelow : 8 * i.val + k < t.hl.toNat := by
      rw [hhl, BitVec.toNat_ofNat]
      omega
    have hxk : byteOf x k = byteOf (t.h.get i) k := (hbyte k hk).trans (if_pos hbelow)
    rw [hxk, hh]
    exact blake2b_getElem? key message hnn i hk hlt

end Sys2Proof.Machine
end

section
/-! PROOFS. The checks of a transaction and what it does when they all pass (O7, O9, O10, O11). -/

namespace Sys2Proof.Machine

variable {s t : State} {w : TxWord}

/-- The state after an instruction that no check refuses (43_driver.md R172 to R184). -/
def performed (i : Instr) (s : State) : State :=
  match i with
  | .wrConfig d => { s with config := configStored d }
  | .wrMsglen d => { s with msglen := d }
  | .wrM k d => { s with m := s.m.set k d }
  | .cmdInit => initState s
  | .cmdNext => nextState s
  | .cmdWipe => s.clearEngine
  | read => s.reply (registerWord read s)

/-- An instruction that BUSY does not refuse is performed, unless its own check fails (60_exceptions.md R228). -/
theorem exec_not_refused_busy {i : Instr} (hb : ¬ (s.busy = true ∧ i ≠ .rdStatus)) :
    exec i s = .next (if ownError i s = .none then performed i s
      else refusedState (txIsWrite (encode i)) (ownError i s) s) := by
  have hfree : i ≠ .rdStatus → s.busy = false := fun hi => by simpa [hi] using hb
  cases i with
  | rdConfig | rdMsglen | rdStatus | rdTLo | rdTHi | rdM | rdDigest =>
    rw [encode, txIsWrite_txWord]
    exact exec_read (txIsWrite_txWord ..) hb
  | wrConfig d =>
    obtain ⟨hconfig, -⟩ := exec_writes (hfree nofun)
    exact hconfig d
  | wrMsglen d =>
    obtain ⟨-, hmsglen, -⟩ := exec_writes (hfree nofun)
    exact hmsglen d
  | wrM k d =>
    obtain ⟨-, -, hm⟩ := exec_writes (hfree nofun)
    exact hm k d
  | cmdInit | cmdNext =>
    obtain ⟨hinit, hnext, -⟩ := exec_commands (hfree nofun)
    simp only [hinit, hnext, ownError, encode, txIsWrite_txWord]
    split <;> rfl
  | cmdWipe =>
    obtain ⟨-, -, hwipe⟩ := exec_commands (hfree nofun)
    exact hwipe

/-- A transaction with a due error is refused with it (60_exceptions.md R228). -/
theorem transact_of_dueError (h : dueError w s ≠ .none) :
    transact 8 w s = .next (refusedState (txIsWrite w) (dueError w s) s) := by
  cases hd : decode w with
  | rejected r => rw [transact_rejected hd, dueError_rejected hd]
  | instr i =>
    obtain ⟨hwe, -⟩ := decode_instr_fields hd
    rw [transact_instr hd, hwe]
    rw [dueError_instr hd] at h ⊢
    by_cases hb : s.busy = true ∧ i ≠ .rdStatus
    · rw [if_pos hb, exec_busy_eq hb.1 hb.2]
    · rw [if_neg hb] at h ⊢
      rw [exec_not_refused_busy hb, if_neg h]

/-- A transaction with no due error is an instruction that is performed (60_exceptions.md R228). -/
theorem transact_of_no_dueError (h : dueError w s = .none) :
    ∃ i, decode w = .instr i ∧ transact 8 w s = exec i s ∧ exec i s = .next (performed i s) := by
  cases hd : decode w with
  | rejected r =>
    rw [dueError_rejected hd] at h
    split at h
    · contradiction
    · exact absurd h (rejectCode_ne_none r)
  | instr i =>
    rw [dueError_instr hd] at h
    by_cases hb : s.busy = true ∧ i ≠ .rdStatus
    · rw [if_pos hb] at h
      contradiction
    · rw [if_neg hb] at h
      exact ⟨i, rfl, transact_instr hd s, by rw [exec_not_refused_busy hb, if_pos h]⟩

/-- A performed instruction records no error; INIT and WIPE clear ERRCODE (60_exceptions.md R229). -/
theorem performed_errcode (i : Instr) (s : State) :
    (performed i s).errcode = s.errcode ∨ (performed i s).errcode = .none := by
  cases i with
  | cmdInit | cmdWipe => exact .inr rfl
  | _ => exact .inl rfl

/-- A recorded error shows in ERRCODE, and in the reply of RD STATUS, alone (60_exceptions.md R223). -/
theorem performed_with_errcode (i : Instr) (s : State) (e : ErrCode) :
    ∃ e' r, performed i { s with errcode := e } = { performed i s with errcode := e', replies := r } ∧
      (i ≠ .rdStatus → r = (performed i s).replies) := by
  cases i with
  | rdStatus => exact ⟨_, _, rfl, fun hne => absurd rfl hne⟩
  | _ => exact ⟨_, _, rfl, fun _ => rfl⟩

/-- Settles O10: a due error refuses the transaction, and with none due the instruction is performed. -/
theorem checksFollowTheFixedOrder : Obligations.ChecksFollowTheFixedOrder := by
  unfold Obligations.ChecksFollowTheFixedOrder
  intro w s
  refine ⟨fun h => ?_, fun h => ?_, ?_⟩
  · rw [transact_of_dueError h, refusedState_eq]
  · obtain ⟨i, hd, htx, he⟩ := transact_of_no_dueError h
    exact ⟨i, _, hd, htx, he, performed_errcode i s⟩
  · rw [engineStep_frame]

/-- Settles O11: no check looks at ERRCODE, so the same instruction is performed whatever it holds. -/
theorem firstErrorWinsAndMasksNothing : Obligations.FirstErrorWinsAndMasksNothing := by
  unfold Obligations.FirstErrorWinsAndMasksNothing
  refine ⟨fun e s => raise_eq s e, fun w s t e hok ht => ?_⟩
  have hok' : dueError w { s with errcode := e } = .none := hok
  obtain ⟨i, hd, htx, he⟩ := transact_of_no_dueError hok
  obtain ⟨i', hd', htx', he'⟩ := transact_of_no_dueError hok'
  obtain rfl : i = i' := by simpa [hd] using hd'
  obtain rfl : performed i s = t := Host_next_inj ((htx.trans he).symm.trans ht)
  obtain ⟨e', r, heq, hr⟩ := performed_with_errcode i s e
  rw [heq] at he'
  refine ⟨_, htx'.trans he', rfl, fun haddr => hr ?_⟩
  rintro rfl
  obtain ⟨-, ha, -⟩ := decode_instr_fields hd
  exact haddr (ha.trans (txAddr_txWord ..))

/-- Settles O9: BUSY is the first check, and RD STATUS is the one transaction it lets pass. -/
theorem busyRefusesAllButStatus : Obligations.BusyRefusesAllButStatus := by
  unfold Obligations.BusyRefusesAllButStatus
  intro w s hb
  refine ⟨fun hne => ?_, fun ⟨hwe, ha⟩ => ?_⟩
  · have hdue : dueError w s = .busy :=
      if_pos ⟨hb, fun ⟨hwe, ha⟩ => hne ⟨hwe, BitVec.eq_of_toNat_eq ha⟩⟩
    rw [transact_of_dueError (by rw [hdue]; decide), hdue, refusedState_eq]
  · have hd : decode w = .instr .rdStatus := by
      rw [decode_eq_instr_iff]
      exact ⟨hwe, ha, fun h => absurd (hwe.symm.trans h) (by decide)⟩
    rw [transact_instr hd]
    rfl

/-- Settles O7: with BUSY = 0 the register map's check is the first one that can fail. -/
theorem disallowedAccessesRaiseAccess : Obligations.DisallowedAccessesRaiseAccess := by
  unfold Obligations.DisallowedAccessesRaiseAccess
  intro we addr d s hb hacc
  have hdue : dueError (txWord we addr d) s = .access := by
    simp only [dueError, txIsWrite_txWord, txAddr_txWord]
    rw [if_neg (by simp [hb]), if_pos]
    rcases hacc with ⟨hwe, ha⟩ | ⟨hwe, rfl⟩ | hlow | ⟨hhigh, -⟩
    · exact .inr (.inr (.inl ⟨hwe, by simpa [BitVec.toNat_eq] using ha⟩))
    · exact .inr (.inr (.inr ⟨hwe, rfl⟩))
    · exact .inl hlow
    · exact .inr (.inl hhigh)
  rw [transact_of_dueError (by rw [hdue]; decide), hdue, refusedState_eq, txIsWrite_txWord]

end Sys2Proof.Machine
end

section
/-! PROOFS. What clears ERRCODE, the errors of phase, and the idle engine (O12, O13, O29). -/

namespace Sys2Proof.Machine

variable {s t : State}

/-- A step in which an accepted WIPE is the move. -/
theorem step_acceptsWipe (h : s.AcceptsWipe) :
    ∃ rest, step s = .next (State.clearEngine { s with queue := rest }) := by
  obtain ⟨⟨hm, w, rest, hq, hd⟩, hb⟩ := h
  refine ⟨rest, ?_⟩
  rw [step_host hm hq, drawn_free hb, hostMove, transact_instr hd]
  obtain ⟨-, -, hwipe⟩ := exec_commands (s := { s with queue := rest }) hb
  exact hwipe

/-- Settles O12: every other step keeps an error that is recorded. -/
theorem errcodeClearedOnlyByInitWipeReset : Obligations.ErrcodeClearedOnlyByInitWipeReset := by
  unfold Obligations.ErrcodeClearedOnlyByInitWipeReset
  intro s t h
  have hclear : s.AcceptsInit ∨ s.AcceptsWipe ∨ s.PresentsReset → t.errcode = .none := by
    rintro (hinit | hwipe | ⟨hm, rest, hq⟩)
    · obtain ⟨rest, hstep⟩ := step_acceptsInit hinit
      obtain rfl := Host_next_inj (hstep.symm.trans h)
      rfl
    · obtain ⟨rest, hstep⟩ := step_acceptsWipe hwipe
      obtain rfl := Host_next_inj (hstep.symm.trans h)
      rfl
    · obtain rfl := Host_next_inj ((step_host hm hq).symm.trans h)
      rfl
  refine ⟨fun hset hne => ?_, hclear⟩
  have hcause : s.AcceptsInit ∨ s.AcceptsWipe ∨ s.PresentsReset := by
    rcases step_errcode h hne with hinit | hwipe | hreset | ⟨hnone, -⟩
    · exact .inl hinit
    · exact .inr (.inl hwipe)
    · exact .inr (.inr hreset)
    · exact absurd hnone hset
  exact ⟨hclear hcause, hcause⟩

/-- Settles O13: each of the two checks of phase fails, and the refusal changes ERRCODE and a read's reply. -/
theorem outOfPhaseRaisesSeq : Obligations.OutOfPhaseRaisesSeq := by
  unfold Obligations.OutOfPhaseRaisesSeq
  intro s hb
  obtain ⟨-, hnext, -⟩ := exec_commands hb
  obtain ⟨-, -, -, -, -, hdigest⟩ := exec_reads hb
  refine ⟨fun hp => ?_, fun hp i => ?_⟩
  · have hne : s.phase ≠ .active := by rcases hp with hp | hp <;> rw [hp] <;> decide
    rw [hnext, if_neg hne, refusedState_eq]
    rfl
  · have hne : s.phase ≠ .done := by rcases hp with hp | hp <;> rw [hp] <;> decide
    rw [hdigest, if_neg hne, refusedState_eq]
    rfl

/-- Settles O29: with BUSY = 0 the engine never moves, and with nothing to present nor does the host. -/
theorem idleEngineKeepsItsState : Obligations.IdleEngineKeepsItsState := by
  unfold Obligations.IdleEngineKeepsItsState
  intro s hb
  refine ⟨fun hq => step_none (mover_none.mpr ⟨hb, hq⟩), fun hm => ?_⟩
  have hbusy := mover_engine hm
  exact absurd (hb.symm.trans hbusy) (by decide)

end Sys2Proof.Machine
end

section
/-! PROOFS. Reset, the registers a hash in progress does not read, and the end of every compression under a fair
schedule (O30, O46, O56). -/

namespace Sys2Proof.Machine

variable {s t : State}

/-- Where reset and WIPE put every element, STATUS reads 0 (30_encoding.md R75). -/
theorem statusWord_clearEngine (s : State) : statusWord s.clearEngine = 0 := by
  change statusWord State.reset = 0
  decide

/-- Settles O30: a reset leaves `clearEngine`, whatever the state, and with BUSY = 0 the engine does not move. -/
theorem resetPutsEveryElementAtItsResetValue : Obligations.ResetPutsEveryElementAtItsResetValue := by
  unfold Obligations.ResetPutsEveryElementAtItsResetValue
  rintro s ⟨hm, rest, hq⟩
  have hstep : step s = .next (State.clearEngine { s.drawn with queue := rest }) := step_host hm hq
  have hstays : (State.clearEngine { s.drawn with queue := rest }).mover ≠ some .engine :=
    fun h => Bool.false_ne_true (mover_engine h)
  refine ⟨_, hstep, ?_, fun i => Vector.getElem_replicate i.isLt, fun i => Vector.getElem_replicate i.isLt,
    fun i => Vector.getElem_replicate i.isLt, rfl, rfl, rfl, rfl, rfl, rfl, rfl, rfl, rfl, rfl, rfl, rfl, rfl,
    statusWord_clearEngine _, hstays⟩
  rw [State.clearEngine, hq, drawn_replies]
  rfl

/-! ### CONFIG and MSGLEN after INIT -/

/-- An engine step neither reads nor writes CONFIG and MSGLEN. -/
theorem engineStep_with_config_msglen (s : State) (c : BitVec 16) (l : Word) :
    engineStep { s with config := c, msglen := l } = { engineStep s with config := c, msglen := l } := by
  rcases engineStep_cases s with ⟨hr, hg, h⟩ | ⟨hr, hg, h⟩ | ⟨h12, h⟩
  · rw [h]
    exact (dif_pos hr).trans (if_pos hg)
  · rw [h]
    exact (dif_pos hr).trans (if_neg hg)
  · rw [h]
    exact engineStep_finalize h12

/-- Neither does a run of engine steps. -/
theorem engineRun_with_config_msglen (n : Nat) (s : State) (c : BitVec 16) (l : Word) :
    engineRun n { s with config := c, msglen := l } = { engineRun n s with config := c, msglen := l } := by
  induction n generalizing s with
  | zero => rfl
  | succ n ih => rw [engineRun, engineStep_with_config_msglen, ih, engineRun]

/-- While BUSY = 0 a NEXT, accepted or refused, neither reads nor writes CONFIG and MSGLEN. -/
theorem exec_cmdNext_with_config_msglen (hb : s.busy = false) (h : exec .cmdNext s = .next t) (c : BitVec 16)
    (l : Word) : exec .cmdNext { s with config := c, msglen := l } = .next { t with config := c, msglen := l } := by
  obtain ⟨-, hnext, -⟩ := exec_commands hb
  obtain ⟨-, hnext', -⟩ := exec_commands (s := { s with config := c, msglen := l }) hb
  rw [hnext] at h
  rw [hnext']
  by_cases hp : s.phase = .active
  · rw [if_pos hp] at h ⊢
    obtain rfl := Host_next_inj h
    rfl
  · rw [if_neg hp] at h ⊢
    obtain rfl := Host_next_inj h
    rw [refusedState_eq, refusedState_eq]

/-- Settles O56: the two writes change CONFIG and MSGLEN alone, which neither NEXT nor an engine step reads. -/
theorem laterConfigurationIsInert : Obligations.LaterConfigurationIsInert := by
  unfold Obligations.LaterConfigurationIsInert
  intro s a b t d d' hb ha hb' ht
  obtain ⟨hconfig, -, -⟩ := exec_writes hb
  obtain rfl := Host_next_inj ((hconfig d).symm.trans ha)
  obtain ⟨-, hmsglen, -⟩ := exec_writes (s := { s with config := configStored d }) hb
  obtain rfl := Host_next_inj ((hmsglen d').symm.trans hb')
  exact ⟨exec_cmdNext_with_config_msglen hb ht _ _, fun n => engineRun_with_config_msglen n t _ _⟩

/-! ### The end of a compression -/

/-- The draw rotates the schedule, so it loses nothing of it. -/
theorem drawn_sched_perm (s : State) : s.drawn.sched.Perm s.sched := by
  unfold State.drawn
  split
  · rw [← List.drop_one]
    exact List.perm_append_comm.trans (by rw [List.take_append_drop])
  · exact .refl _

/-- A draw keeps the schedule fair (70_reset_and_hazards.md R258). -/
theorem fairSchedule_drawn (h : fairSchedule s.sched) : fairSchedule s.drawn.sched := by
  have hperm := drawn_sched_perm s
  rcases h with hnil | hmem
  · exact .inl (List.perm_nil.mp (hnil ▸ hperm))
  · exact .inr (hperm.mem_iff.mpr hmem)

/-- A host draw under a fair schedule brings the engine's next draw one closer. -/
theorem idxOf_engine_rotate {draws : List Agent} (h : fairSchedule (Agent.host :: draws)) :
    (draws ++ [Agent.host]).idxOf .engine + 1 = (Agent.host :: draws).idxOf .engine := by
  have hmem : Agent.engine ∈ draws := by simpa [fairSchedule] using h
  rw [List.idxOf_append, if_pos hmem, List.idxOf_cons]
  rfl

/-- While BUSY = 1 the host moves only on a draw of its own. -/
theorem mover_host_busy (hb : s.busy = true) (hm : s.mover = some .host) : ∃ draws, s.sched = .host :: draws := by
  obtain ⟨op, rest, hq⟩ := mover_host hm
  cases hs : s.sched with
  | nil => simp [State.mover, hb, hq, hs] at hm
  | cons a draws =>
    obtain ⟨ha, -⟩ := mover_drawn_busy hb hq hs
    obtain rfl : a = .host := Option.some_inj.mp (ha.symm.trans hm)
    exact ⟨draws, rfl⟩

/-- A move of the host that is no reset: while BUSY = 1 it changes at most ERRCODE, the replies and the queue, where it
can only put its own operation back. -/
theorem hostMove_busy (hb : s.busy = true) {op : HostOp} (hop : op ≠ .reset) (h : hostMove op s = .next t) :
    t = { s with errcode := t.errcode, replies := t.replies, queue := t.queue } ∧ t.queue ⊆ op :: s.queue := by
  cases op with
  | tx width w =>
    obtain ⟨-, ⟨i, -, he⟩ | ⟨r, e, -, rfl⟩⟩ := transact_cases h
    · rcases exec_cases he with ⟨w', e, rfl⟩ | ⟨x, rfl⟩ | ⟨hfree, -⟩
      · rw [refusedState_eq]
        exact ⟨rfl, List.subset_cons_self _ _⟩
      · exact ⟨rfl, List.subset_cons_self _ _⟩
      · simp [hb] at hfree
    · rw [refusedState_eq]
      exact ⟨rfl, List.subset_cons_self _ _⟩
  | poll =>
    rw [hostMove, pollMove_eq, pollAgain_reply_status, if_pos hb] at h
    obtain rfl := Host_next_inj h
    exact ⟨rfl, List.Subset.refl _⟩
  | reset => exact absurd rfl hop

/-- An engine step ends the compression or takes one off the steps left, in every state with BUSY = 1. -/
theorem engineStep_ends_or_stepsLeft (hb : s.busy = true) :
    (engineStep s).busy = false ∨ (engineStep s).stepsLeft + 1 = s.stepsLeft := by
  rcases mixesDone_lt_or_rnd s with hmix | h12
  · obtain ⟨r, g, hpos, heng⟩ := engineStep_mix hmix
    refine .inr ?_
    rw [heng, State.stepsLeft, State.stepsLeft, if_pos hb, if_pos hb]
    change 97 - (8 * r.val + g.val) + 1 = 97 - s.mixesDone
    omega
  · exact .inl (by rw [engineStep_finalize h12, finalize_busy])

/-- A compression that nothing stops: BUSY = 1, the schedule is fair and every transaction to come is whole. -/
structure State.Compressing (s : State) : Prop where
  busy : s.busy = true
  fair : fairSchedule s.sched
  whole : wholeWords s.queue

/-- A bound on the moves still to come: one turn of the schedule for each engine step left, and the draws of the turn
begun before the engine's. -/
def State.movesLeft (s : State) : Nat := s.stepsLeft * (s.sched.length + 1) + s.sched.idxOf .engine

/-- One move of a compression ends it or goes on with fewer moves left. -/
def State.Advances (s t : State) : Prop := t.busy = false ∨ (t.Compressing ∧ t.movesLeft < s.movesLeft)

/-- An engine move pays for a whole turn of the schedule. -/
theorem advances_engineStep (hc : s.Compressing) : s.Advances (engineStep s.drawn) := by
  obtain ⟨hb, hfair, hwhole⟩ := hc
  have hbusy : s.drawn.busy = true := by rw [drawn_busy, hb]
  cases hend : (engineStep s.drawn).busy with
  | false => exact .inl hend
  | true =>
    have hframe := engineStep_frame s.drawn
    have hsched : (engineStep s.drawn).sched = s.drawn.sched := by rw [hframe]
    have hqueue : (engineStep s.drawn).queue = s.queue := by rw [hframe, drawn_queue]
    refine .inr ⟨⟨hend, hsched ▸ fairSchedule_drawn hfair, hqueue ▸ hwhole⟩, ?_⟩
    have hleft : (engineStep s.drawn).stepsLeft + 1 = s.stepsLeft := by
      rcases engineStep_ends_or_stepsLeft hbusy with hfree | hleft
      · simp [hend] at hfree
      · rw [hleft, drawn_eq]
        rfl
    have hlen : s.drawn.sched.length = s.sched.length := (drawn_sched_perm s).length_eq
    have hidx : s.drawn.sched.idxOf .engine ≤ s.sched.length := hlen ▸ List.idxOf_le_length
    rw [State.movesLeft, State.movesLeft, hsched, hlen, ← hleft, Nat.add_mul]
    omega

/-- A host move uses up one of the draws before the engine's. -/
theorem advances_hostMove (hc : s.Compressing) (hm : s.mover = some .host) {op : HostOp} {rest : List HostOp}
    (hq : s.queue = op :: rest) (h : hostMove op { s.drawn with queue := rest } = .next t) : s.Advances t := by
  obtain ⟨hb, hfair, hwhole⟩ := hc
  by_cases hop : op = .reset
  · subst hop
    obtain rfl := Host_next_inj h
    exact .inl rfl
  · obtain ⟨draws, hs⟩ := mover_host_busy hb hm
    obtain ⟨-, hdrawn⟩ := mover_drawn_busy hb hq hs
    have hrotate := idxOf_engine_rotate (hs ▸ hfair)
    have hfair' := fairSchedule_drawn hfair
    rw [hdrawn] at h hfair'
    obtain ⟨ht, hsub⟩ := hostMove_busy (s := { s with queue := rest, sched := draws ++ [.host] }) hb hop h
    rw [← hq] at hsub
    have hsched : t.sched = draws ++ [.host] := by rw [ht]
    have hlen : (draws ++ [Agent.host]).length = (Agent.host :: draws).length := List.length_append
    have hleft : t.stepsLeft = s.stepsLeft := by rw [ht]; rfl
    refine .inr ⟨⟨by rw [ht]; exact hb, hsched ▸ hfair', fun o ho => hwhole o (hsub ho)⟩, ?_⟩
    rw [State.movesLeft, State.movesLeft, hleft, hsched, hs, hlen]
    omega

/-- Every step of a compression answers and advances it. -/
theorem step_advances (hc : s.Compressing) : ∃ t, step s = .next t ∧ s.Advances t := by
  cases hm : s.mover with
  | none =>
    obtain ⟨hfree, -⟩ := mover_none.mp hm
    exact absurd (hfree.symm.trans hc.busy) Bool.false_ne_true
  | some a =>
    cases a with
    | engine => exact ⟨_, step_engine hm, advances_engineStep hc⟩
    | host =>
      obtain ⟨op, rest, hq⟩ := mover_host hm
      have hwidth : ∀ width w, op = .tx width w → width = 8 := hc.whole op (hq ▸ List.mem_cons_self)
      obtain ⟨t, ht⟩ := hostMove_answers hwidth { s.drawn with queue := rest }
      exact ⟨t, (step_host hm hq).trans ht, advances_hostMove hc hm hq ht⟩

/-- A run of one step more begins with the step. -/
theorem run_of_step (h : step s = .next t) (n : Nat) : Host.Core.run core (n + 1) s = Host.Core.run core n t := by
  have hcore : core.step s = .next t := h
  simp only [Host.Core.run, hcore]

/-- BUSY = 0 is reached within the bound: each step advances the compression. -/
theorem compressing_ends (k : Nat) (hc : s.Compressing) (hk : s.movesLeft < k) :
    ∃ n t, n ≤ k ∧ Host.Core.run core n s = .next t ∧ State.busy t = false := by
  induction k generalizing s with
  | zero => exact absurd hk (Nat.not_lt_zero _)
  | succ k ih =>
    obtain ⟨t, hstep, hfree | ⟨hct, hlt⟩⟩ := step_advances hc
    · exact ⟨1, t, Nat.le_add_left _ _, run_of_step hstep 0, hfree⟩
    · obtain ⟨n, u, hn, hrun, hfree⟩ := ih hct (by omega)
      exact ⟨n + 1, u, Nat.succ_le_succ hn, (run_of_step hstep n).trans hrun, hfree⟩

/-- At most 97 turns of the schedule and the one begun are left. -/
theorem movesLeft_lt (s : State) : s.movesLeft < 98 * (s.sched.length + 1) := by
  have hsteps : s.stepsLeft ≤ 97 := by
    unfold State.stepsLeft
    split <;> omega
  have hidx : s.sched.idxOf Agent.engine ≤ s.sched.length := List.idxOf_le_length
  have hturns := Nat.mul_le_mul_right (s.sched.length + 1) hsteps
  unfold State.movesLeft
  omega

/-- Settles O46: the moves left fall with every step, and they are below the bound at the start. -/
theorem fairScheduleEndsEveryCompression : Obligations.FairScheduleEndsEveryCompression := by
  unfold Obligations.FairScheduleEndsEveryCompression
  intro s _ hb hfair hwhole
  exact compressing_ends _ ⟨hb, hfair, hwhole⟩ (movesLeft_lt s)

end Sys2Proof.Machine
end
